-- ==== Sys2Proof/Word.lean ====
section
/-! DEFINITION. The word types of the spec (00_scope.md R11): an 8-bit byte and a 32-bit word. -/

namespace Sys2Proof

/-- `Byte` (R11): an 8-bit word. -/
abbrev Byte := BitVec 8

/-- `Word32` (R11, R12): a 32-bit pattern; its signed reading is two's complement. -/
abbrev Word32 := BitVec 32

end Sys2Proof
end

