-- ==== Sys2Proof/Syntax.lean ====
section
/-! DEFINITION. What can be written down: the operand types, the two instructions of spec/opcode_table.json,
the encoder's requests and the Host's operations. No meaning stands here. -/

namespace Sys2Proof

/-- `Register` (10_state.md R21): the closed set A, B, C, D (EAX, EBX, ECX, EDX by R22). -/
inductive Register where
  | a
  | b
  | c
  | d
deriving DecidableEq, Repr, Inhabited

/-- `AddressingMode` (R23): four modes, all representable, only `registerDirect` used. `directRegister` is the
memory mode of code 0b00, not a register operand (90_conflicts.md C3). -/
inductive AddressingMode where
  | directRegister
  | registerDisp8
  | registerDisp32
  | registerDirect
deriving DecidableEq, Repr, Inhabited

/-- The instructions: one constructor per row of spec/opcode_table.json (30_encoding.md R49). -/
inductive Instr where
  /-- `mov <reg>, <imm32>`: Format M (R52). -/
  | mov (dest : Register) (imm : Word32)
  /-- `int <imm8>`: Format I (R54). -/
  | int (vector : Byte)
deriving DecidableEq, Repr, Inhabited

/-- A request on the encoder's port (00_scope.md R13), with its operands already at the port's widths. -/
inductive Request where
  | loadImm (value : Word32) (dest : Register)
  | softInt (vector : Byte)
  | freeze
deriving DecidableEq, Repr, Inhabited

/-- What the Host can do (48_host_harness.md R83): send a request, send one whose operand is a mathematical
integer that the port converts first (40_primitives.md R68), or drive the harness. -/
inductive HostOp where
  | request (r : Request)
  /-- `LoadImm(ToWord32(value), dest)`. -/
  | loadInt (value : Int) (dest : Register)
  /-- `LoadImm(ToWord32Addr(address), dest)`. -/
  | loadAddr (address : Int) (dest : Register)
  /-- `SoftInt(ToByte(vector))`. -/
  | softIntInt (vector : Int)
  /-- `Acquire(size)` (R85). -/
  | acquire (size : Nat)
  /-- `Populate(region, S)` (R86). -/
  | populate
  /-- `Invoke(region)` (R87). -/
  | invoke
deriving DecidableEq, Repr, Inhabited

end Sys2Proof
end

