-- ==== Sys2Proof/Machine/State.lean ====
section
/-! DEFINITION. Everything the spec gives the machine, as plain data: the encoder's record, the ports, the harness,
the execution reference (XR), and the reasons a step can stop. -/

namespace Sys2Proof.Machine

/-- The platform's "diagnostic code/message" (48_host_harness.md R85). Its shape is DESIGN CHOICE (log entry 22). -/
structure Diagnostic where
  code : Int
  message : String
deriving DecidableEq, Repr, Inhabited

/-- The `info` of a Kernel fault (42_int_n.md R79); the spec gives it no type. DESIGN CHOICE (log entry 22). -/
abbrev KernelInfo := Nat

/-- A process exit status (48_host_harness.md R88): an integer of no stated width. DESIGN CHOICE (log entry 19). -/
abbrev ExitStatus := Int

/-- The faults of 60_exceptions.md R92, codes 1 to 6, each with the info it records. All are safe: the spec raises
each one. Recorded in the state first (log entry 11). -/
inductive Fault where
  /-- Code 1. Raised by the port conversions (R68) and by a byte index of 4 or more (R71). Safe. -/
  | unsupportedOperand (value : Int)
  /-- Code 2. Raised by an encode request after Freeze (R72, R76). Safe. -/
  | streamFrozen (request : Request)
  /-- Code 3. Raised by an append past a finite capacity (R72, R76). Safe. -/
  | streamOverflow (streamLength instrLength : Nat)
  /-- Code 4. Raised by Acquire when the mapping primitive fails (R85); it ends the process (R89). Safe. -/
  | allocationError (diag : Diagnostic)
  /-- Code 5. Raised by the XR when an instruction byte is absent (R73, R78, R79). Safe (D22). -/
  | execPastEnd (pc : Word32)
  /-- Code 6. Raised by `int n` when the Kernel answers a fault (R79). Safe. -/
  | kernelFault (vector : Byte) (info : KernelInfo)
deriving DecidableEq, Repr

/-- The refusals: codes 7 and 8 of R92, and the model's own. A refusal is safe: it proves less. -/
inductive Refusal where
  /-- An instruction without a meaning; no arm of `exec` answers it. Safe. -/
  | notModelled (mnemonic : String)
  /-- Code 7. Raised by the XR for bytes that are no Format M or Format I instance (R61). Safe (D23). -/
  | unmodelledInstruction (pc : Word32) (bytes : List Byte)
  /-- Code 8. Raised by Populate into a region smaller than the stream (R86). Safe. -/
  | regionUndersized (regionSize streamLength : Nat)
  /-- Raised by `step` before Invoke when the Host has sent nothing: no agent has a move. Safe (log entry 12). -/
  | noHostRequest
  /-- Raised by `step` for a Host operation outside R110's order: it "would have no move in the model" (R83).
  Safe (log entry 13). -/
  | outOfOrder (op : HostOp)
  /-- Raised by `step` after termination: a terminated XR has no further step (R78). Safe. -/
  | processEnded (code : ExitStatus)
deriving DecidableEq, Repr

/-- `EncState` (10_state.md R14): the encoder's whole state. -/
structure EncState where
  stream : List Byte
  frozen : Bool
  faults : List Fault
deriving DecidableEq, Repr

/-- What the response port carries (00_scope.md R13). -/
inductive Response where
  | ok
  | fault (f : Fault)
deriving DecidableEq, Repr

/-- The XR's registers A, B, C, D (R24): `none` is the spec's own value for "nothing has written it" (log entry 3). -/
structure RegFile where
  a : Option Word32
  b : Option Word32
  c : Option Word32
  d : Option Word32
deriving DecidableEq, Repr, Inhabited

/-- `Mem` (20_memory.md R33), as (address, byte) pairs with addresses strictly rising; an unlisted address is `none`
(log entry 17). -/
abbrev Memory := List Host.Cell

/-- The acquired region (48_host_harness.md R85): `RegionBase` and `regionSize`. -/
structure Region where
  base : Word32
  size : Nat
deriving DecidableEq, Repr

/-- Where the run stands in R110's order, and so which agent moves next. -/
inductive Phase where
  /-- The Host encodes, then freezes, then acquires. -/
  | encoding
  /-- A region is acquired. -/
  | acquired
  /-- The region holds the stream. -/
  | populated
  /-- Control is with the XR; the Host has no move any more (R88). -/
  | invoked
  /-- Acquire failed: the harness has reported `diag` and ended the process (R89). -/
  | allocationFailed (diag : Diagnostic)
deriving DecidableEq, Repr

/-- The XR's status (42_int_n.md R78). Every value but `running` is final (R98). -/
inductive XrStatus where
  | running
  | terminated (code : ExitStatus)
  | faulted (f : Fault)
  | refused (r : Refusal)
deriving DecidableEq, Repr

/-- The whole machine. -/
structure State where
  /-- The encoder (R14). -/
  enc : EncState
  /-- `StreamCapacity` (D4): the encoder's parameter, held as plain data and changed by no step; `none` is unbounded
  (log entry 7). -/
  streamCapacity : Option Nat
  /-- The last response on the encoder's port (R13). -/
  response : Option Response
  /-- What the last request returned beside its response: the stream for Freeze (48_host_harness.md R84,
  95_test_vectors.md V6), nothing for any other (log entry 25). -/
  returned : Option (List Byte)
  /-- The Host's pending operations, oldest first: an input (R83). -/
  hostQueue : List HostOp
  /-- Which agent moves (R110). -/
  phase : Phase
  /-- The acquired region (R85). -/
  region : Option Region
  /-- Platform memory as the XR fetches it (R33). -/
  mem : Memory
  /-- XR registers (R24). -/
  regs : RegFile
  /-- XR program counter (R26). -/
  pc : Word32
  /-- XR status (R78). -/
  status : XrStatus
  /-- The model's own: free values drawn so far (log entry 6). -/
  draws : Nat
deriving DecidableEq, Repr

/-- Creation of the encoder (R25). -/
def EncState.reset : EncState := { stream := [], frozen := false, faults := [] }

/-- Registers at Invoke (R28). -/
def RegFile.unwritten : RegFile := { a := none, b := none, c := none, d := none }

/-- The machine right after reset (70_reset_and_hazards.md R109): a new encoder, nothing acquired, the XR not yet
invoked. `streamCapacity` has the spec's default (00_scope.md R7). `response`, `returned`,
`hostQueue`, `pc` and `draws` are DESIGN CHOICE (log entries 25, 25, 12, 14, 6). -/
def State.reset : State where
  enc := EncState.reset
  streamCapacity := none
  response := none
  returned := none
  hostQueue := []
  phase := .encoding
  region := none
  mem := []
  regs := RegFile.unwritten
  pc := 0
  status := .running
  draws := 0

end Sys2Proof.Machine
end

