-- ==== Sys2Proof/Config.lean ====
section
/-! DEFINITION. The parameters the spec leaves OPEN (00_scope.md R7): constants without a body, so that a claim holds
whatever they are. Where the spec's parameter is a relation ("choose"), the constant also takes a draw number, which
the step reads from `State.draws` and advances. `StreamCapacity`, which has a default, is a field of State
(log entry 7). -/

namespace Sys2Proof

open Sys2Proof.Machine

/-- `ZeroSizeAcquire` (48_host_harness.md R90). -/
inductive ZeroSizeAcquire where
  | fail
  | emptyRegion
deriving DecidableEq, Repr, Inhabited

/-- An answer of `Platform.map` to a request for `size` bytes (R85). A success is a region of at least `size` bytes
that lies inside the 32-bit address space (R27; DEDUCED, log entry 8). -/
inductive MapAnswer (size : Nat) where
  | fail (diag : Diagnostic)
  | ok (base : Word32) (regionSize : Nat) (large : size ≤ regionSize) (inside : base.toNat + regionSize ≤ 2 ^ 32)
deriving Inhabited

/-- An outcome of `KernelService` (42_int_n.md R79). `Mem'` of a return is given by its bytes, in any order
(log entry 5). -/
inductive KernelOutcome where
  | fault (info : KernelInfo)
  | terminate (code : ExitStatus)
  | ret (regs : RegFile) (cells : List (Word32 × Byte))
deriving DecidableEq, Repr, Inhabited

/-- The type of `KernelService`: a draw number, the vector, `x` and `Mem`. -/
abbrev KernelService := Nat → Byte → RegFile → Memory → KernelOutcome

/-- An integer other than 0 (48_host_harness.md R89: "distinct, non-zero"). -/
inductive NonZeroInt where
  | pos (predecessor : Nat)
  | neg (predecessor : Nat)
deriving DecidableEq, Repr, Inhabited

/-- The integer itself. -/
def NonZeroInt.toInt : NonZeroInt → Int
  | .pos n => (n : Int) + 1
  | .neg n => -((n : Int) + 1)

/-- An answer of the machine's own Kernel (42_int_n.md R79). A termination's code differs from the sentinel, so no
program this Kernel runs can end with the sentinel (D21, 48_host_harness.md R89; log entry 10). -/
inductive KernelAnswer (sentinel : ExitStatus) where
  | fault (info : KernelInfo)
  | terminate (code : ExitStatus) (distinct : code ≠ sentinel)
  | ret (regs : RegFile) (cells : List (Word32 × Byte))
deriving Inhabited

/-- The outcome an answer is. -/
def KernelAnswer.outcome {sentinel : ExitStatus} : KernelAnswer sentinel → KernelOutcome
  | .fault info => .fault info
  | .terminate code _ => .terminate code
  | .ret regs cells => .ret regs cells

namespace Config

/-- `Platform.map` (R85, D18, U6, U12) for a size above 0. DESIGN CHOICE (log entry 8). -/
opaque platformMap : Nat → (size : Nat) → MapAnswer size

/-- `ZeroSizeAcquire` (D20). -/
opaque zeroSizeAcquire : ZeroSizeAcquire

/-- The diagnostic of a failed Acquire of size 0 (U6: any value). DESIGN CHOICE (log entry 9). -/
opaque zeroSizeDiagnostic : Nat → Diagnostic

/-- The base of a zero-length region (R90; U12: the platform's). DESIGN CHOICE (log entry 9). -/
opaque emptyRegionBase : Nat → Word32

/-- `AllocFailStatus` (D21, U9): not 0, and by the type of `kernelAnswer` no code of the machine's Kernel.
DESIGN CHOICE (log entry 10). -/
opaque allocFailStatus : NonZeroInt

/-- What the machine's Kernel answers (D15, U5, U8, U14): constrained by D21 alone. DESIGN CHOICE (log entries 4, 10). -/
opaque kernelAnswer : Nat → Byte → RegFile → Memory → KernelAnswer allocFailStatus.toInt

/-- `KernelService` (D15): the outcomes of `kernelAnswer`. -/
def kernelService : KernelService := fun draw n x m => (kernelAnswer draw n x m).outcome

/-- `MsgAddr` of the sample program (D16). -/
opaque msgAddr : Word32

/-- `MsgLen` of the sample program (D16). -/
opaque msgLen : Word32

end Config

end Sys2Proof
end

