-- ==== Sys2Proof/WellFormed.lean ====
section
/-! DEFINITION. The checks on operands and fields that the spec states as ranges. `Register`, `Word32` and `Byte`
already hold an instruction's own fields to their ranges, so `Instr.wf` asks nothing more (60_exceptions.md R93:
"every register, every 32-bit immediate, every interrupt vector byte is valid"). -/

namespace Sys2Proof

/-- The range of a signed immediate (40_primitives.md R68, `ToWord32`). -/
def immediateInRange (v : Int) : Bool := decide (-(2 ^ 31) ≤ v) && decide (v ≤ 2 ^ 31 - 1)

/-- The range of a data address (R68, `ToWord32Addr`). -/
def addressInRange (p : Int) : Bool := decide (0 ≤ p) && decide (p ≤ 2 ^ 32 - 1)

/-- The range of a vector (R68, `ToByte`). -/
def vectorInRange (n : Int) : Bool := decide (0 ≤ n) && decide (n ≤ 255)

/-- The byte indexes of a 32-bit value (40_primitives.md R71). -/
def byteIndexInRange (i : Nat) : Bool := decide (i < 4)

/-- An 8-bit displacement (30_encoding.md R62; signed, because R23 sign-extends it: DEDUCED, log entry 24). -/
def disp8InRange (v : Int) : Bool := decide (-128 ≤ v) && decide (v ≤ 127)

/-- The addressing bytes of Format M (30_encoding.md R53): `mod = 0b11`, `reg = 0b000`, `rm` at most 0b011. -/
def formatMAddressing (b : Byte) : Bool :=
  b.extractLsb' 6 2 == 0b11#2 && b.extractLsb' 3 3 == 0b000#3 && decide ((b.extractLsb' 0 3).toNat ≤ 0b011)

/-- Every instruction term is well-formed: its types hold its fields to their ranges (R93). -/
def Instr.wf : Instr → Bool
  | .mov _ _ => true
  | .int _ => true

end Sys2Proof
end

