-- ==== Sys2Proof/Decode.lean ====
section
/-! DEFINITION. Bytes to instructions and back: the code tables, the field helpers, the decoder (total, rejecting by
name), then the encoder, both written from 30_encoding.md R50 to R56, and the opcode table's own numbering. -/

namespace Sys2Proof

/-! ## Code tables (10_state.md R19: constants, not registers) -/

/-- `RegCode` (R21). A's code is the source's; C, D and B are the spec's choice from general knowledge
(PRESUMED, log entry 1). -/
def regCode : Register → BitVec 3
  | .a => 0b000
  | .c => 0b001
  | .d => 0b010
  | .b => 0b011

/-- The register a 3-bit code names; 0b100 to 0b111 name none (R22). -/
def regOfCode (code : BitVec 3) : Option Register :=
  if code = 0b000 then some .a
  else if code = 0b001 then some .c
  else if code = 0b010 then some .d
  else if code = 0b011 then some .b
  else none

/-- `ModeCode` (R23). 0b11 is the source's; the other three are the spec's choice (PRESUMED, log entry 2). -/
def modeCode : AddressingMode → BitVec 2
  | .directRegister => 0b00
  | .registerDisp8 => 0b01
  | .registerDisp32 => 0b10
  | .registerDirect => 0b11

/-- The mode a 2-bit code names. -/
def modeOfCode (code : BitVec 2) : AddressingMode :=
  if code = 0b00 then .directRegister
  else if code = 0b01 then .registerDisp8
  else if code = 0b10 then .registerDisp32
  else .registerDirect

/-- Opcode byte of Format M (30_encoding.md R52). -/
def opcodeMov : Byte := 0xC7

/-- Opcode byte of Format I (R54). -/
def opcodeInt : Byte := 0xCD

/-- Length in bytes (R51). -/
def Instr.size : Instr → Nat
  | .mov _ _ => 6
  | .int _ => 2

/-- The longest instruction, in bytes (R51). -/
def maxInstrBytes : Nat := 6

/-! ## Primitives (40_primitives.md) -/

/-- `ComposeAddressingByte` (R66). A wider or negative `mid` or `rm` gives the low 3 bits of its two's-complement
pattern. -/
def composeAddressingByte (mode : AddressingMode) (mid rm : Int) : Byte :=
  ((modeCode mode).setWidth 8 <<< 6) ||| ((BitVec.ofInt 8 mid &&& 0b111) <<< 3) ||| (BitVec.ofInt 8 rm &&& 0b111)

/-- `b[7:6]`, the mode field (30_encoding.md R50). -/
def modField (b : Byte) : BitVec 2 := b.extractLsb' 6 2

/-- `b[5:3]`, the middle selector (R50). -/
def regField (b : Byte) : BitVec 3 := b.extractLsb' 3 3

/-- `b[2:0]`, the operand selector (R50). -/
def rmField (b : Byte) : BitVec 3 := b.extractLsb' 0 3

/-- Byte `i` of a word: `v[8i+7:8i]` (00_scope.md R12, 40_primitives.md R69). The index check is
`Machine.extractLittleEndianByte`. -/
def byteOf (v : Word32) (i : Nat) : Byte := v.extractLsb' (8 * i) 8

/-- The 32-bit immediate assembled from instruction bytes 2..5 (30_encoding.md R55). -/
def assembleImm (b2 b3 b4 b5 : Byte) : Word32 :=
  b2.setWidth 32 ||| (b3.setWidth 32 <<< 8) ||| (b4.setWidth 32 <<< 16) ||| (b5.setWidth 32 <<< 24)

/-! ## Decoder -/

/-- Why bytes are not an instruction. `truncated` is the fetch that meets an absent byte (`ExecPastEnd`); the other
four are `UnmodelledInstruction` (30_encoding.md R61). -/
inductive DecodeError where
  /-- The bytes end before the instruction does. -/
  | truncated
  /-- The first byte is neither `0xC7` nor `0xCD`. -/
  | unknownOpcode (opcode : Byte)
  /-- `0xC7` with `mod` other than 0b11: a memory operand. -/
  | memoryOperand (bytes : List Byte)
  /-- `0xC7` with `reg` other than 0b000. -/
  | opcodeExtension (bytes : List Byte)
  /-- `0xC7` with `rm` in 0b100..0b111. -/
  | registerCode (bytes : List Byte)
deriving DecidableEq, Repr

/-- The bytes a rejection looked at: the opcode alone (42_int_n.md R78) or all six (41_mov_imm32.md R73). -/
def DecodeError.bytes : DecodeError → List Byte
  | .truncated => []
  | .unknownOpcode b => [b]
  | .memoryOperand bs => bs
  | .opcodeExtension bs => bs
  | .registerCode bs => bs

/-- The rest of Format M after its opcode byte (R52, R53, R55). The length is checked before the addressing byte
(60_exceptions.md R96). -/
def decodeMov : List Byte → Except DecodeError (Instr × List Byte)
  | b1 :: b2 :: b3 :: b4 :: b5 :: rest =>
    if modField b1 ≠ 0b11 then .error (.memoryOperand [opcodeMov, b1, b2, b3, b4, b5])
    else if regField b1 ≠ 0b000 then .error (.opcodeExtension [opcodeMov, b1, b2, b3, b4, b5])
    else
      match regOfCode (rmField b1) with
      | some r => .ok (.mov r (assembleImm b2 b3 b4 b5), rest)
      | none => .error (.registerCode [opcodeMov, b1, b2, b3, b4, b5])
  | _ => .error .truncated

/-- The rest of Format I after its opcode byte (R54, R56). -/
def decodeInt : List Byte → Except DecodeError (Instr × List Byte)
  | n :: rest => .ok (.int n, rest)
  | [] => .error .truncated

/-- One instruction from the front of a byte list, with the bytes after it (R58: the first byte decides). -/
def decode : List Byte → Except DecodeError (Instr × List Byte)
  | [] => .error .truncated
  | b0 :: rest =>
    if b0 = opcodeMov then decodeMov rest
    else if b0 = opcodeInt then decodeInt rest
    else .error (.unknownOpcode b0)

/-- At most `fuel` instructions from a byte list, stepping by length (R58); `none` where some bytes are no instruction. -/
def decodeStream : Nat → List Byte → Option (List Instr)
  | _, [] => some []
  | 0, _ :: _ => none
  | fuel + 1, b :: bs =>
    match decode (b :: bs) with
    | .ok (i, rest) => (decodeStream fuel rest).map (i :: ·)
    | .error _ => none

/-! ## Encoder -/

/-- The bytes of an instruction in emission order (R52, R53 for `mov`; R54 for `int`). -/
def encode : Instr → List Byte
  | .mov dest imm =>
    [opcodeMov, composeAddressingByte .registerDirect 0b000 (regCode dest).toNat,
      byteOf imm 0, byteOf imm 1, byteOf imm 2, byteOf imm 3]
  | .int vector => [opcodeInt, vector]

/-- The bytes of a program in order (R57: the reachable streams are `(M | I)*`). -/
def encodeAll (is : List Instr) : List Byte := is.flatMap encode

/-! ## The opcode table (spec/opcode_table.json) -/

/-- One row of the table: its mnemonic, and its mask and match bytes in emission order. -/
structure OpcodeRow where
  mnemonic : String
  mask : List Byte
  pattern : List Byte
deriving DecidableEq, Repr

/-- The two rows, byte for byte as the table gives them. -/
def opcodeTable : List OpcodeRow :=
  [⟨"mov", [0xFF, 0xFC, 0x00, 0x00, 0x00, 0x00], [0xC7, 0xC0, 0x00, 0x00, 0x00, 0x00]⟩,
   ⟨"int", [0xFF, 0x00], [0xCD, 0x00]⟩]

/-- The row matches the front of a byte list: every masked byte equals the pattern's. -/
def maskedMatch : List Byte → List Byte → List Byte → Bool
  | [], [], _ => true
  | m :: ms, p :: ps, b :: bs => decide (b &&& m = p) && maskedMatch ms ps bs
  | _, _, _ => false

/-- See `maskedMatch`. -/
def OpcodeRow.covers (r : OpcodeRow) (bs : List Byte) : Bool := maskedMatch r.mask r.pattern bs

/-- The mnemonic of an instruction's row. -/
def Instr.mnemonic : Instr → String
  | .mov _ _ => "mov"
  | .int _ => "int"

/-! ## The table's numbering of an instruction's bits -/

/-- `n` bytes of a number with the first byte at its most significant end (the table: "emission order: first byte
(offset 0) leftmost"; its `int` row has the opcode in bits 15..8). -/
def bytesFirstHigh (n w : Nat) : List Byte := (List.range n).map fun i => BitVec.ofNat 8 (w >>> (8 * (n - 1 - i)))

/-- `n` bytes of a number with the first byte in bits 7..0. -/
def bytesFirstLow (n w : Nat) : List Byte := (List.range n).map fun i => BitVec.ofNat 8 (w >>> (8 * i))

/-- A byte list made up to the longest instruction with zero bytes. -/
def padInstr (bs : List Byte) : List Byte := bs ++ List.replicate (maxInstrBytes - bs.length) 0

/-- Whether the decoder reads an instruction. -/
def decodes (bs : List Byte) : Bool :=
  match decode bs with
  | .ok _ => true
  | .error _ => false

/-- The bytes, in memory order, of a word of `nbits` bits numbered as the table numbers them, first byte leftmost;
a word that is no instruction so is read with its first byte in bits 7..0 (DESIGN CHOICE, log entry 16). -/
def tableBytes (nbits w : Nat) : List Byte :=
  let high := padInstr (bytesFirstHigh (nbits / 8) w)
  let low := padInstr (bytesFirstLow (nbits / 8) w)
  if decodes high then high else if decodes low then low else high

/-- The instruction the decoder reads from a word numbered as spec/opcode_table.json numbers it. -/
def decodeTableWord (nbits w : Nat) : Option Instr :=
  match decode (tableBytes nbits w) with
  | .ok (i, _) => some i
  | .error _ => none

end Sys2Proof
end

