-- ==== Sys2Proof/Machine/Ops.lean ====
section
/-! DEFINITION. The named operations over memory, registers and the XR's control state, and taking a fault. -/

namespace Sys2Proof.Machine

/-! ## Memory (20_memory.md R33) -/

/-- What an address that is not listed reads as: no value (R33; safe, log entry 17). -/
def unlistedByte : Option Byte := none

/-- `Mem[a]` by the address's number. -/
def Memory.lookup : Memory → Nat → Option Byte
  | [], _ => unlistedByte
  | (k, b) :: m, a => if k = a then some b else Memory.lookup m a

/-- `MemRead(a, 1)` (00_scope.md R13). -/
def Memory.read (m : Memory) (a : Word32) : Option Byte := Memory.lookup m a.toNat

/-- Insert or replace the byte of one address, keeping the list sorted. -/
def Memory.insert : Memory → Nat → Byte → Memory
  | [], a, b => [(a, b)]
  | (k, c) :: m, a, b =>
    if a < k then (a, b) :: (k, c) :: m
    else if a = k then (a, b) :: m
    else (k, c) :: Memory.insert m a b

/-- `MemWrite(a, 1, b)` (R13). -/
def Memory.write (m : Memory) (a : Word32) (b : Byte) : Memory := Memory.insert m a.toNat b

/-- Bytes written at ascending addresses from `a` (R13, R35); address arithmetic is modulo 2^32 (10_state.md R27). -/
def Memory.writeBytes (m : Memory) (a : Word32) : List Byte → Memory
  | [] => m
  | b :: bs => Memory.writeBytes (Memory.write m a b) (a + 1) bs

/-- A memory given by its bytes; of two for one address the later stands. -/
def Memory.ofCells (cells : List (Word32 × Byte)) : Memory :=
  cells.foldl (fun m c => Memory.write m c.1 c.2) []

/-- The addresses rise strictly from `lo` on and lie below 2^32. -/
def Memory.sortedFrom (lo : Nat) : Memory → Bool
  | [] => true
  | (k, _) :: m => decide (lo ≤ k) && decide (k < 2 ^ 32) && Memory.sortedFrom (k + 1) m

/-- The canonical form: addresses strictly rising, all in the 32-bit space. No entry can equal what an unlisted
address reads as, since that is no byte. -/
def Memory.wf (m : Memory) : Bool := Memory.sortedFrom 0 m

/-! ## Registers (10_state.md R24) -/

/-- `x[r]`. -/
def RegFile.get (x : RegFile) : Register → Option Word32
  | .a => x.a
  | .b => x.b
  | .c => x.c
  | .d => x.d

/-- `x[r] <- some v`: all 32 bits are replaced (41_mov_imm32.md R73). -/
def RegFile.set (x : RegFile) (r : Register) (v : Word32) : RegFile :=
  match r with
  | .a => { x with a := some v }
  | .b => { x with b := some v }
  | .c => { x with c := some v }
  | .d => { x with d := some v }

/-- `x[r] <- some v` on the machine. -/
def writeReg (r : Register) (v : Word32) (s : State) : State := { s with regs := s.regs.set r v }

/-- `pc <- pc + n`, modulo 2^32 (10_state.md R26, R27). -/
def advancePc (n : Nat) (s : State) : State := { s with pc := s.pc + BitVec.ofNat 32 n }

/-- One more free value has been drawn (the model's own counter, log entry 6). -/
def countDraw (s : State) : State := { s with draws := s.draws + 1 }

/-! ## Faults of the XR (60_exceptions.md R98), and the Kernel's answer (42_int_n.md R79) -/

/-- Taking an XR fault: `status` is set and nothing else changes (R98). -/
def raiseXr (f : Fault) (s : State) : State := { s with status := .faulted f }

/-- An XR refusal: `status` is set and nothing else changes (R98). -/
def refuseXr (r : Refusal) (s : State) : State := { s with status := .refused r }

/-- `status <- terminated(code)` (R79). The pc stays (DEDUCED, log entry 29). -/
def terminateXr (code : ExitStatus) (s : State) : State := { s with status := .terminated code }

/-- The return from the Kernel: `x <- x'; Mem <- Mem'; pc <- pc + 2` (R79, R80, R99). -/
def returnFromKernel (x : RegFile) (m : Memory) (s : State) : State :=
  advancePc 2 { s with regs := x, mem := m }

/-- Entry to the Kernel through vector `n` and what its outcome leaves: the one trap of the XR (R79, R99). -/
def takeKernelOutcome (n : Byte) (o : KernelOutcome) (s : State) : State :=
  match o with
  | .ret x cells => returnFromKernel x (Memory.ofCells cells) s
  | .terminate code => terminateXr code s
  | .fault info => raiseXr (.kernelFault n info) s

/-! ## Faults of the encoder (60_exceptions.md R97) -/

/-- Taking a request's fault: it joins `faults`, it is the response, and nothing else changes (R97). -/
def EncState.raise (f : Fault) (e : EncState) : EncState × Response :=
  ({ e with faults := e.faults ++ [f] }, .fault f)

/-- The append of one whole instruction, or none of it (41_mov_imm32.md R72, 42_int_n.md R76, 20_memory.md R37).
`StreamFrozen` comes before `StreamOverflow` (60_exceptions.md R96). -/
def EncState.append (cap : Option Nat) (req : Request) (bs : List Byte) (e : EncState) : EncState × Response :=
  if e.frozen then e.raise (.streamFrozen req)
  else
    match cap with
    | none => ({ e with stream := e.stream ++ bs }, .ok)
    | some k =>
      if e.stream.length + bs.length > k then e.raise (.streamOverflow e.stream.length bs.length)
      else ({ e with stream := e.stream ++ bs }, .ok)

/-- `Freeze` (48_host_harness.md R84): `frozen` is set and the response is `ok`; a second one changes nothing. -/
def EncState.freeze (e : EncState) : EncState × Response := ({ e with frozen := true }, .ok)

/-! ## Numeric codes (60_exceptions.md R92) -/

/-- The code of a fault. -/
def Fault.code : Fault → Nat
  | .unsupportedOperand _ => 1
  | .streamFrozen _ => 2
  | .streamOverflow _ _ => 3
  | .allocationError _ => 4
  | .execPastEnd _ => 5
  | .kernelFault _ _ => 6

/-- The code of a refusal; the model's own have none. -/
def Refusal.code : Refusal → Option Nat
  | .unmodelledInstruction _ _ => some 7
  | .regionUndersized _ _ => some 8
  | _ => none

end Sys2Proof.Machine
end

