-- ==== Sys2Proof/Machine/LoadImmediate.lean ====
section
/-! DEFINITION. The load form: its encode request (41_mov_imm32.md R72) and its execution (R73). -/

namespace Sys2Proof.Machine

/-- `LoadImm(value, dest)` (R72): append `C7`, the addressing byte and the four bytes of `value`. -/
def encodeLoadImmediate (cap : Option Nat) (value : Word32) (dest : Register) (e : EncState) : EncState × Response :=
  e.append cap (.loadImm value dest) (encode (.mov dest value))

/-- `mov r, imm32` (R73): `x[r] <- some(imm); pc <- pc + 6`. No flag, no memory access, no exception. -/
def execMov (dest : Register) (imm : Word32) (s : State) : Host.Outcome State Fault Refusal :=
  .next (advancePc 6 (writeReg dest imm s))

end Sys2Proof.Machine
end

