-- ==== Sys2Proof/Machine/Operands.lean ====
section
/-! DEFINITION. Operand forms: the port conversions, byte extraction with a wide index, displacements of the unused
addressing modes, and the conversion of a Host operation to a port request. -/

namespace Sys2Proof.Machine

/-- `ToWord32` (40_primitives.md R68): two's complement, or `UnsupportedOperand`. -/
def toWord32 (v : Int) : Except Fault Word32 :=
  if immediateInRange v then .ok (BitVec.ofInt 32 v) else .error (.unsupportedOperand v)

/-- `ToWord32Addr` (R68): a data address's 32-bit pattern, or `UnsupportedOperand`. -/
def toWord32Addr (p : Int) : Except Fault Word32 :=
  if addressInRange p then .ok (BitVec.ofInt 32 p) else .error (.unsupportedOperand p)

/-- `ToByte` (R68), or `UnsupportedOperand`. -/
def toByte (n : Int) : Except Fault Byte :=
  if vectorInRange n then .ok (BitVec.ofInt 8 n) else .error (.unsupportedOperand n)

/-- `ExtractLittleEndianByte` (R69) with an index of any width: 4 or more is `UnsupportedOperand` and gives no byte
(R71). -/
def extractLittleEndianByte (value : Word32) (index : Nat) : Except Fault Byte :=
  if byteIndexInRange index then .ok (byteOf value index) else .error (.unsupportedOperand index)

/-- The displacement bytes of a mode (30_encoding.md R62): a value that does not fit its field is
`UnsupportedOperand`. No operation of the block uses it (R41). The signed ranges are DEDUCED from R23 (log entry 24). -/
def displacementBytes (mode : AddressingMode) (v : Int) : Except Fault (List Byte) :=
  match mode with
  | .registerDisp8 => if disp8InRange v then .ok [BitVec.ofInt 8 v] else .error (.unsupportedOperand v)
  | .registerDisp32 =>
    if immediateInRange v then
      .ok ((List.range 4).map (byteOf (BitVec.ofInt 32 v)))
    else .error (.unsupportedOperand v)
  | .directRegister => if v = 0 then .ok [] else .error (.unsupportedOperand v)
  | .registerDirect => if v = 0 then .ok [] else .error (.unsupportedOperand v)

/-- The port request of an encoder operation, converted first where its operand is an integer (R68); `none` for a
harness operation. -/
def portRequest : HostOp → Option (Except Fault Request)
  | .request r => some (.ok r)
  | .loadInt v dest => some ((toWord32 v).map fun w => .loadImm w dest)
  | .loadAddr p dest => some ((toWord32Addr p).map fun w => .loadImm w dest)
  | .softIntInt n => some ((toByte n).map .softInt)
  | .acquire _ => none
  | .populate => none
  | .invoke => none

end Sys2Proof.Machine
end

