-- ==== Sys2Proof/Machine/SoftwareInterrupt.lean ====
section
/-! DEFINITION. The interrupt form: its encode request (42_int_n.md R76) and its execution (R79). -/

namespace Sys2Proof.Machine

/-- `SoftInt(vector)` (R76): append `CD` and the vector. -/
def encodeSoftwareInterrupt (cap : Option Nat) (vector : Byte) (e : EncState) : EncState × Response :=
  e.append cap (.softInt vector) (encode (.int vector))

/-- `int n` under a given Kernel (R79): the Kernel sees the vector, the registers and memory, and its outcome is
taken. Every vector goes the same way (R81). -/
def execIntWith (kernel : KernelService) (n : Byte) (s : State) : Host.Outcome State Fault Refusal :=
  .next (takeKernelOutcome n (kernel s.draws n s.regs s.mem) (countDraw s))

/-- `int n` (R79) under the OPEN parameter `KernelService` (D15). -/
def execInt (n : Byte) (s : State) : Host.Outcome State Fault Refusal :=
  execIntWith Config.kernelService n s

end Sys2Proof.Machine
end

