-- ==== Sys2Proof/Machine/Encoder.lean ====
section
/-! DEFINITION. The encoder's request port (00_scope.md R13): one request, one response. -/

namespace Sys2Proof.Machine

/-- One port request on the encoder (R72, R76, R84), with the capacity parameter (D4). -/
def EncState.handle (cap : Option Nat) (req : Request) (e : EncState) : EncState × Response :=
  match req with
  | .loadImm value dest => encodeLoadImmediate cap value dest e
  | .softInt vector => encodeSoftwareInterrupt cap vector e
  | .freeze => e.freeze

/-- One request after its port conversion: a failed conversion is a request fault like any other and comes first
(40_primitives.md R68, 60_exceptions.md R96). -/
def EncState.submit (cap : Option Nat) (converted : Except Fault Request) (e : EncState) : EncState × Response :=
  match converted with
  | .ok req => e.handle cap req
  | .error f => e.raise f

/-- What a request returns beside its response: the stream for Freeze (48_host_harness.md R84, 95_test_vectors.md V6),
nothing for any other. -/
def EncState.returned (converted : Except Fault Request) (e : EncState) : Option (List Byte) :=
  match converted with
  | .ok .freeze => some e.stream
  | .ok (.loadImm _ _) => none
  | .ok (.softInt _) => none
  | .error _ => none

/-- The same on the machine: the encoder's record, the response and what is returned with it change, nothing else. -/
def submitRequest (converted : Except Fault Request) (s : State) : State :=
  { s with
    enc := (s.enc.submit s.streamCapacity converted).1
    response := some (s.enc.submit s.streamCapacity converted).2
    returned := s.enc.returned converted }

end Sys2Proof.Machine
end

