-- ==== Sys2Proof/Machine/Harness.lean ====
section
/-! DEFINITION. The execution harness (48_host_harness.md): Acquire, Populate, Invoke, and one Host operation. -/

namespace Sys2Proof.Machine

/-- A finished Acquire: the region is the machine's (R85). -/
def acceptRegion (r : Region) (s : State) : State := { s with region := some r, phase := .acquired }

/-- A failed Acquire: the diagnostic is reported and the process ends; no region, no Populate, no Invoke (R89). -/
def failAllocation (diag : Diagnostic) (s : State) : State := { s with phase := .allocationFailed diag }

/-- Acquire of a size above 0 under the platform's answer (R85). -/
def takeMapAnswer {size : Nat} (answer : MapAnswer size) (s : State) : State :=
  match answer with
  | .ok base regionSize _ _ => acceptRegion ⟨base, regionSize⟩ s
  | .fail diag => failAllocation diag s

/-- Acquire of size 0 under `ZeroSizeAcquire` (R90), with the platform's diagnostic or base. -/
def acquireZero (choice : ZeroSizeAcquire) (diag : Diagnostic) (base : Word32) (s : State) : State :=
  match choice with
  | .fail => failAllocation diag s
  | .emptyRegion => acceptRegion ⟨base, 0⟩ s

/-- `Acquire(size)` (R85, R90). -/
def acquire (size : Nat) (s : State) : State :=
  if size = 0 then
    acquireZero Config.zeroSizeAcquire (Config.zeroSizeDiagnostic s.draws) (Config.emptyRegionBase s.draws)
      (countDraw s)
  else takeMapAnswer (Config.platformMap s.draws size) (countDraw s)

/-- `Populate(region, S)` (R86): the stream's bytes at the start of the region, or `RegionUndersized`. -/
def populate (r : Region) (s : State) : Host.Outcome State Fault Refusal :=
  if r.size < s.enc.stream.length then .refused (.regionUndersized r.size s.enc.stream.length)
  else .next { s with mem := Memory.writeBytes s.mem r.base s.enc.stream, phase := .populated }

/-- `Invoke(region)` (R87): the XR starts at the region's first byte with nothing written in its registers. -/
def invoke (r : Region) (s : State) : State :=
  { s with regs := RegFile.unwritten, pc := r.base, status := .running, phase := .invoked }

/-- A harness operation, in R110's order only: Acquire once the stream is frozen, Populate once a region is acquired,
Invoke once it is populated. Out of order there is no move (R83). -/
def harnessOp (op : HostOp) (s : State) : Host.Outcome State Fault Refusal :=
  match op, s.phase, s.region with
  | .acquire size, .encoding, _ => if s.enc.frozen then .next (acquire size s) else .refused (.outOfOrder op)
  | .populate, .acquired, some r => populate r s
  | .invoke, .populated, some r => .next (invoke r s)
  | _, _, _ => .refused (.outOfOrder op)

/-- One Host operation before Invoke (R83): a request for the encoder, or one for the harness. -/
def hostOp (op : HostOp) (s : State) : Host.Outcome State Fault Refusal :=
  match portRequest op with
  | some converted => .next (submitRequest converted s)
  | none => harnessOp op s

/-- The Host's step before Invoke: it takes its oldest pending operation (log entry 12). -/
def hostStep (s : State) : Host.Outcome State Fault Refusal :=
  match s.hostQueue with
  | [] => .refused .noHostRequest
  | op :: rest => hostOp op { s with hostQueue := rest }

/-- The region's protection flags (R85): none before it exists, write+execute from its creation. -/
inductive Protection where
  | noAccess
  | writeExecute
deriving DecidableEq, Repr

/-- See `Protection`: a view of `region`, stored once. -/
def State.protection (s : State) : Protection :=
  match s.region with
  | none => .noAccess
  | some _ => .writeExecute

/-- The process exit status: the program's own code (R88), or `AllocFailStatus` (R89), or none while it runs. A run
that ended `faulted` or `refused` has none either: the spec gives it no exit status (R91, 60_exceptions.md R98;
DESIGN CHOICE, log entry 32). -/
def State.exitStatus (s : State) : Option ExitStatus :=
  match s.phase, s.status with
  | .allocationFailed _, _ => some Config.allocFailStatus.toInt
  | .invoked, .terminated code => some code
  | _, _ => none

end Sys2Proof.Machine
end

