-- ==== Sys2Proof/Machine/Dispatch.lean ====
section
/-! DEFINITION. One arm per instruction. -/

namespace Sys2Proof.Machine

def exec (i : Instr) (s : State) : Host.Outcome State Fault Refusal :=
  match i with
  | .mov dest imm => Sys2Proof.Machine.execMov dest imm s
  | .int vector => Sys2Proof.Machine.execInt vector s

end Sys2Proof.Machine
end

