-- ==== Sys2Proof/Machine/Fetch.lean ====
section
/-! DEFINITION. The XR's instruction fetch (42_int_n.md R78) and what a fetch that finds no instruction does. -/

namespace Sys2Proof.Machine

/-- The bytes present from `a` on, at ascending addresses, up to the first absent one or `n` of them (20_memory.md
R35). Address arithmetic is modulo 2^32 (10_state.md R27, log entry 27). -/
def fetchWindow (m : Memory) (a : Word32) : Nat → List Byte
  | 0 => []
  | n + 1 =>
    match Memory.read m a with
    | none => []
    | some b => b :: fetchWindow m (a + 1) n

/-- What the decoder reads at the pc. -/
def fetchDecode (s : State) : Except DecodeError (Instr × List Byte) :=
  decode (fetchWindow s.mem s.pc maxInstrBytes)

/-- A fetch without an instruction: `ExecPastEnd` where a byte is absent, else `UnmodelledInstruction` with the bytes
looked at (60_exceptions.md R92, R96, R98). -/
def takeFetchError (e : DecodeError) (s : State) : State :=
  match e with
  | .truncated => raiseXr (.execPastEnd s.pc) s
  | .unknownOpcode b => refuseXr (.unmodelledInstruction s.pc [b]) s
  | .memoryOperand bs => refuseXr (.unmodelledInstruction s.pc bs) s
  | .opcodeExtension bs => refuseXr (.unmodelledInstruction s.pc bs) s
  | .registerCode bs => refuseXr (.unmodelledInstruction s.pc bs) s

/-- The machine with a word's bytes at the pc and the XR running there (log entry 15). -/
def placeInstr (bs : List Byte) (s : State) : State :=
  { s with mem := Memory.writeBytes s.mem s.pc bs, phase := .invoked, status := .running }

end Sys2Proof.Machine
end

