-- ==== Sys2Proof/Machine/Xr.lean ====
section
/-! DEFINITION. One step of the execution reference (42_int_n.md R78). -/

namespace Sys2Proof.Machine

/-- One XR step (42_int_n.md R78). A terminated, faulted or refused XR has no further step (R98): the step then
answers what the run ended with. -/
def xrStep (s : State) : Host.Outcome State Fault Refusal :=
  match s.status with
  | .running =>
    match fetchDecode s with
    | .ok (i, _) => exec i s
    | .error e => .next (takeFetchError e s)
  | .terminated code => .refused (.processEnded code)
  | .faulted f => .fault f
  | .refused r => .refused r

end Sys2Proof.Machine
end

