-- ==== Sys2Proof/Machine/Step.lean ====
section
/-! DEFINITION. One step of the machine: the Host's before Invoke, the XR's after it. -/

namespace Sys2Proof.Machine

/-- One step of the agent whose turn it is (00_scope.md R8, 70_reset_and_hazards.md R110). After a failed Acquire the
process has ended (48_host_harness.md R89). -/
def step (s : State) : Host.Outcome State Fault Refusal :=
  match s.phase with
  | .encoding => hostStep s
  | .acquired => hostStep s
  | .populated => hostStep s
  | .invoked => xrStep s
  | .allocationFailed diag => .fault (.allocationError diag)

/-- The machine about to run the instruction of a table word (log entry 15). -/
def State.withFetchWord (s : State) (nbits w : Nat) : State := placeInstr (tableBytes nbits w) s

end Sys2Proof.Machine
end

