-- ==== Sys2Proof/Safety.lean ====
section
/-! DEFINITION. The terms claims are stated in: the machine's invariant, what a clean run is, what memory holds, and
the two named assumptions about the Kernel that the spec lets a claim make. -/

namespace Sys2Proof

open Sys2Proof.Machine

/-- `bs` lies in memory at ascending addresses from `a` (20_memory.md R35). -/
def Machine.Memory.Holds (m : Memory) (a : Word32) (bs : List Byte) : Prop :=
  ∀ k, k < bs.length → Memory.read m (a + BitVec.ofNat 32 k) = bs[k]?

/-- Every address that is not among the `n` bytes from `a` on reads in `m'` as it does in `m`. -/
def Machine.Memory.SameOutside (m m' : Memory) (a : Word32) (n : Nat) : Prop :=
  ∀ x, (∀ k, k < n → x ≠ a + BitVec.ofNat 32 k) → Memory.read m' x = Memory.read m x

/-- The XR is executing: control has passed to it and it has not stopped (42_int_n.md R78). -/
def Machine.State.executing (s : State) : Prop := s.phase = .invoked ∧ s.status = .running

/-- The Host may still act: control has not passed to the XR and the process has not ended (48_host_harness.md R83). -/
def Machine.State.hostTurn (s : State) : Prop := s.phase = .encoding ∨ s.phase = .acquired ∨ s.phase = .populated

/-- What every step keeps. Memory is in canonical form; the stream is a concatenation of instructions
(30_encoding.md R57); the region lies inside the address space (10_state.md R27); in each phase of R110 the
region and memory are what the operations before it left; until Invoke `status` holds its start value
(log entry 14); and no termination code is the sentinel (48_host_harness.md R89, D21, log entry 10). -/
structure Machine.State.Inv (s : State) : Prop where
  memCanonical : Memory.wf s.mem = true
  streamEmitted : ∃ is, s.enc.stream = encodeAll is
  regionInside : ∀ r, s.region = some r → r.base.toNat + r.size ≤ 2 ^ 32
  beforeAcquire : s.phase = .encoding → s.region = none ∧ s.mem = []
  afterFailure : ∀ d, s.phase = .allocationFailed d → s.region = none ∧ s.mem = []
  afterAcquire : s.phase = .acquired → s.enc.frozen = true ∧ (∃ r, s.region = some r) ∧ s.mem = []
  afterPopulate : s.phase = .populated → s.enc.frozen = true ∧
    ∃ r, s.region = some r ∧ s.enc.stream.length ≤ r.size ∧ s.mem = Memory.writeBytes [] r.base s.enc.stream
  beforeInvoke : s.phase ≠ .invoked → s.status = .running
  afterInvoke : s.phase = .invoked → s.enc.frozen = true ∧
    ∃ r, s.region = some r ∧ s.enc.stream.length ≤ r.size
  statusDistinct : ∀ code, s.status = .terminated code → code ≠ Config.allocFailStatus.toInt

/-- A run with nothing recorded against it: no request fault, no failed allocation, no XR fault or refusal
(60_exceptions.md R92, R97, R98). -/
def Machine.State.clean (s : State) : Bool :=
  s.enc.faults.isEmpty &&
    (match s.phase with
      | .allocationFailed _ => false
      | .encoding => true
      | .acquired => true
      | .populated => true
      | .invoked => true) &&
    (match s.status with
      | .running => true
      | .terminated _ => true
      | .faulted _ => false
      | .refused _ => false)

/-- `t` is reached from `s` in some number of steps. -/
inductive Reaches : State → State → Prop where
  | refl (s : State) : Reaches s s
  | tail {s t u : State} : Reaches s t → step t = .next u → Reaches s u

/-- The encode request of an instruction (30_encoding.md R65: one request is one instruction). -/
def encodeRequest : Instr → Request
  | .mov dest imm => .loadImm imm dest
  | .int vector => .softInt vector

/-- The state after the Host's front operation failed its port conversion, with `q` still pending: the fault is
recorded and answered, and nothing else changes (40_primitives.md R68, 60_exceptions.md R97). -/
def Machine.State.afterFailedConversion (v : Int) (q : List HostOp) (s : State) : State :=
  { s with
    hostQueue := q
    enc := { s.enc with faults := s.enc.faults ++ [.unsupportedOperand v] }
    response := some (.fault (.unsupportedOperand v))
    returned := none }

/-- `n` more bytes fit under the capacity (92_eei_decisions.md D4). -/
def fits (cap : Option Nat) (n : Nat) : Prop := ∀ k, cap = some k → n ≤ k

/-- The named, informative assumption `LinuxI386Int80` (42_int_n.md R82, D16) on a Kernel: vector 0x80 with A = 1 ends
the process, whatever B is, with B's value as the code where B holds one, and with A = 4 returns. B's value is read
unsigned, and with B unwritten the code is free (DESIGN CHOICE, log entry 19). What registers and memory the A = 4
service returns is left free, so the premise does not say that the program's bytes still stand (DESIGN CHOICE for the
memory, log entry 31). A claim that uses it takes it as a premise. -/
def LinuxI386Int80 (kernel : KernelService) : Prop :=
  ∀ draw x m,
    (x.a = some 1 → ∃ code, kernel draw 0x80 x m = .terminate code ∧ ∀ b, x.b = some b → code = b.toNat) ∧
    (x.a = some 4 → ∃ x' cells, kernel draw 0x80 x m = .ret x' cells)

/-- The constraint on `AllocFailStatus` (D21): the Kernel ends no process with the sentinel. It holds of the machine's
own Kernel and sentinel, by the type of `Config.kernelAnswer` (log entry 10); for another Kernel it is a premise. -/
def SentinelDistinct (kernel : KernelService) (sentinel : NonZeroInt) : Prop :=
  ∀ draw n x m code, kernel draw n x m = .terminate code → code ≠ sentinel.toInt

end Sys2Proof
end

