-- ==== Sys2Proof/Certificates/Slice0/Obligations.lean ====
section
/-! DEFINITION. The statements for the provers, one per entry of OBLIGATIONS.json. -/

open Sys2Proof Sys2Proof.Machine

/-! ## Reset and the invariant -/

/-- R25: what creating an encoder leaves (the spec's own decision D7: "It follows from the append-only description"). -/
def Obligations.ResetLeavesEncoderEmptyAndUnfrozen : Prop :=
  core.reset.enc.stream = [] ∧ core.reset.enc.frozen = false ∧ core.reset.enc.faults = []

/-- The invariant `State.Inv` (R27, R33, R57, R110) holds right after reset. What the invariant says of status before
Invoke is log entry 14 (DESIGN CHOICE). -/
def Obligations.InvariantHoldsAtReset : Prop := State.Inv core.reset

/-- Every step keeps `State.Inv`: canonical memory, a stream of whole instructions, a region inside the address space,
in each phase what the operations of R110 leave, and no termination with the sentinel's code (log entry 10). What the
invariant says of status before Invoke is log entry 14 (DESIGN CHOICE), and that a region lies in the address space is
log entry 8 (DEDUCED). -/
def Obligations.StepKeepsInvariant : Prop :=
  ∀ s t : State, s.Inv → step s = .next t → t.Inv

/-! ## Encoding -/

/-- R51, R52, R54, R34: the bytes of the two formats, by offset. Format M has `mod` 0b11, `reg` 0b000, `rm` the
register's code, and byte `i` of the immediate at offset `2 + i`; Format I has the opcode and the vector. -/
def Obligations.FormatBytesByOffset : Prop :=
  (∀ (r : Register) (v : Word32), (encode (.mov r v)).length = 6 ∧
    (encode (.mov r v))[0]? = some 0b11000111 ∧
    (∃ b : Byte, (encode (.mov r v))[1]? = some b ∧
      modField b = 0b11 ∧ regField b = 0b000 ∧ rmField b = regCode r) ∧
    (∀ i, i < 4 → (encode (.mov r v))[2 + i]? = some (v.extractLsb' (8 * i) 8))) ∧
  (∀ n : Byte, encode (.int n) = [0b11001101, n])

/-- R55, R56: the operands an instruction's bytes hold. The immediate is the four bytes from offset 2, the first the
least significant, with nothing extended or scaled; the vector is byte 1 as it stands. -/
def Obligations.OperandsAreAssembledFromBytes : Prop :=
  (∀ (b1 b2 b3 b4 b5 : Byte) (rest : List Byte) (r : Register) (v : Word32),
    decode (0xC7 :: b1 :: b2 :: b3 :: b4 :: b5 :: rest) = .ok (.mov r v, rest) →
    v = b2.setWidth 32 ||| b3.setWidth 32 <<< 8 ||| b4.setWidth 32 <<< 16 ||| b5.setWidth 32 <<< 24 ∧
    v.toNat = b2.toNat + 256 * b3.toNat + 65536 * b4.toNat + 16777216 * b5.toNat) ∧
  (∀ (n : Byte) (rest : List Byte), decode (0xCD :: n :: rest) = .ok (.int n, rest))

/-- R52 to R56: decoding the encoding of any instruction gives it back and leaves the bytes after it. -/
def Obligations.DecodeOfEncodeIsTheInstruction : Prop :=
  ∀ (i : Instr) (rest : List Byte), i.wf = true → decode (encode i ++ rest) = .ok (i, rest)

/-- The other direction: bytes that decode are that instruction's encoding, so each instruction has one encoding. -/
def Obligations.DecodedBytesAreTheEncoding : Prop :=
  ∀ (bs : List Byte) (i : Instr) (rest : List Byte), decode bs = .ok (i, rest) → bs = encode i ++ rest

/-- R58 (which the spec derives from R51, R52, R54, R57): every emitted instruction starts with `C7` and is 6 bytes long or starts with `CD` and is 2 bytes long, and
stepping by these lengths decodes every emitted stream, uniquely. -/
def Obligations.EmittedStreamsDecodeUniquely : Prop :=
  (∀ i : Instr, ((encode i).head? = some 0xC7 ∧ (encode i).length = 6) ∨
    ((encode i).head? = some 0xCD ∧ (encode i).length = 2)) ∧
  (∀ is : List Instr, decodeStream is.length (encodeAll is) = some is) ∧
  (∀ is js : List Instr, encodeAll is = encodeAll js → is = js)

/-- Words written out from the spec's encodings (95_test_vectors.md V4, V5) decode to what they stand for. The three
with addressing byte C1, C2 or C3 rest on the codes of C, D and B, the spec's own decision D1 (log entry 1). -/
def Obligations.WrittenOutWordsDecode : Prop :=
  decode [0xC7, 0xC0, 0x04, 0x00, 0x00, 0x00] = .ok (.mov .a 4, []) ∧
  decode [0xC7, 0xC3, 0x78, 0x56, 0x34, 0x12] = .ok (.mov .b 0x12345678, []) ∧
  decode [0xC7, 0xC1, 0x00, 0x01, 0x00, 0x00] = .ok (.mov .c 256, []) ∧
  decode [0xC7, 0xC2, 0xFF, 0xFF, 0xFF, 0x7F] = .ok (.mov .d 0x7FFFFFFF, []) ∧
  decode [0xCD, 0x80] = .ok (.int 0x80, []) ∧
  decode [0xCD, 0x03] = .ok (.int 3, [])

/-- The decoder reads a row's instruction from exactly the bytes that row of spec/opcode_table.json covers. -/
def Obligations.DecoderFollowsOpcodeTable : Prop :=
  ∀ row, row ∈ opcodeTable → ∀ bs : List Byte,
    row.covers bs = true ↔ ∃ i rest, decode bs = .ok (i, rest) ∧ i.mnemonic = row.mnemonic

/-- R53: the addressing byte of Format M has `mod` 0b11, `reg` 0b000 and `rm` the register's code, so it is C0 for A,
C1 for C, C2 for D and C3 for B (the codes of C, D and B are the spec's own decision D1, log entry 1). -/
def Obligations.FormatMAddressingBytesAreC0ToC3 : Prop :=
  ∀ (r : Register) (v : Word32), ∃ b : Byte, (encode (.mov r v))[1]? = some b ∧
    modField b = 0b11 ∧ regField b = 0b000 ∧ rmField b = regCode r ∧ formatMAddressing b = true ∧
    (r = .a → b = 0xC0) ∧ (r = .c → b = 0xC1) ∧ (r = .d → b = 0xC2) ∧ (r = .b → b = 0xC3)

/-- R66, R67: the three fields of a composed addressing byte are its inputs, each masked to its width, for every mode
and every integer; so the composition is injective on masked inputs, as the spec derives. Masking a wider or negative
integer is the spec's decision D8, and the codes of the three unused modes are D2 (log entry 2). -/
def Obligations.AddressingByteFieldsRecoverInputs : Prop :=
  ∀ (mode : AddressingMode) (mid rm : Int),
    modField (composeAddressingByte mode mid rm) = modeCode mode ∧
    modeOfCode (modField (composeAddressingByte mode mid rm)) = mode ∧
    regField (composeAddressingByte mode mid rm) = BitVec.ofInt 3 mid ∧
    rmField (composeAddressingByte mode mid rm) = BitVec.ofInt 3 rm

/-- R69: index 0 to 3 gives bits 8i+7..8i of the two's-complement pattern, as an unsigned byte. -/
def Obligations.ExtractedByteIsTheWordsByte : Prop :=
  ∀ (v : Word32) (i : Nat), i < 4 →
    extractLittleEndianByte v i = .ok (v.extractLsb' (8 * i) 8) ∧
    (v.extractLsb' (8 * i) 8).toNat = v.toNat / 2 ^ (8 * i) % 256

/-- R71 (the spec's own decision D11): a wider index faults and gives no byte. -/
def Obligations.WideByteIndexFaults : Prop :=
  ∀ (v : Word32) (i : Nat), 4 ≤ i → extractLittleEndianByte v i = .error (.unsupportedOperand i)

/-- R70: the four bytes of any word reassemble to it; those of -1 are all FF. -/
def Obligations.LittleEndianBytesReassemble : Prop :=
  (∀ v : Word32, ∃ b0 b1 b2 b3 : Byte,
    extractLittleEndianByte v 0 = .ok b0 ∧ extractLittleEndianByte v 1 = .ok b1 ∧
    extractLittleEndianByte v 2 = .ok b2 ∧ extractLittleEndianByte v 3 = .ok b3 ∧
    b0.setWidth 32 ||| b1.setWidth 32 <<< 8 ||| b2.setWidth 32 <<< 16 ||| b3.setWidth 32 <<< 24 = v) ∧
  (∀ i : Nat, i < 4 → extractLittleEndianByte (BitVec.ofInt 32 (-1)) i = .ok 0xFF)

/-- R68: each port conversion keeps a value in its range and faults outside it, and a failed conversion is recorded
and answered, with `stream` and `frozen` unchanged. That a value out of range faults is the spec's decision D8. -/
def Obligations.PortConversionsKeepOrFault : Prop :=
  (∀ v : Int, -(2 ^ 31) ≤ v → v ≤ 2 ^ 31 - 1 → ∃ w, toWord32 v = .ok w ∧ w.toInt = v) ∧
  (∀ v : Int, v < -(2 ^ 31) ∨ 2 ^ 31 - 1 < v → toWord32 v = .error (.unsupportedOperand v)) ∧
  (∀ p : Int, 0 ≤ p → p ≤ 2 ^ 32 - 1 → ∃ w, toWord32Addr p = .ok w ∧ (w.toNat : Int) = p) ∧
  (∀ p : Int, p < 0 ∨ 2 ^ 32 - 1 < p → toWord32Addr p = .error (.unsupportedOperand p)) ∧
  (∀ n : Int, 0 ≤ n → n ≤ 255 → ∃ b, toByte n = .ok b ∧ (b.toNat : Int) = n) ∧
  (∀ n : Int, n < 0 ∨ 255 < n → toByte n = .error (.unsupportedOperand n)) ∧
  (∀ (cap : Option Nat) (v : Int) (e : EncState),
    e.submit cap (.error (.unsupportedOperand v)) =
      ({ e with faults := e.faults ++ [.unsupportedOperand v] }, .fault (.unsupportedOperand v)))

/-! ## The encoder's requests -/

/-- R74: a successful `LoadImm` appends exactly its six bytes. -/
def Obligations.SuccessfulLoadImmAppendsSixBytes : Prop :=
  ∀ (cap : Option Nat) (v : Word32) (r : Register) (e : EncState),
    (e.handle cap (.loadImm v r)).2 = .ok →
    (e.handle cap (.loadImm v r)).1.stream = e.stream ++ [(0xC7 : Byte),
      0b11000000 ||| ((0b000 : Byte) <<< 3) ||| (regCode r).setWidth 8,
      v.extractLsb' 0 8, v.extractLsb' 8 8, v.extractLsb' 16 8, v.extractLsb' 24 8]

/-- R77: a successful `SoftInt` appends exactly its two bytes, for every vector. -/
def Obligations.SuccessfulSoftIntAppendsTwoBytes : Prop :=
  ∀ (cap : Option Nat) (n : Byte) (e : EncState),
    (e.handle cap (.softInt n)).2 = .ok → (e.handle cap (.softInt n)).1.stream = e.stream ++ [(0xCD : Byte), n]

/-- R94: a request that faults emits no byte. -/
def Obligations.FaultedRequestEmitsNoByte : Prop :=
  ∀ (cap : Option Nat) (conv : Except Fault Request) (e : EncState) (f : Fault),
    (e.submit cap conv).2 = .fault f → (e.submit cap conv).1.stream = e.stream

/-- R72, R74: `LoadImm` on a frozen stream, past a finite capacity, and otherwise. The two faults are the spec's own
decisions D6 and D4, their order D10. -/
def Obligations.LoadImmRequestAppendsSixBytesOrFaults : Prop :=
  ∀ (cap : Option Nat) (v : Word32) (r : Register) (e : EncState),
    (e.frozen = true → e.handle cap (.loadImm v r) =
      ({ e with faults := e.faults ++ [.streamFrozen (.loadImm v r)] }, .fault (.streamFrozen (.loadImm v r)))) ∧
    (e.frozen = false → ∀ k, cap = some k → k < e.stream.length + 6 → e.handle cap (.loadImm v r) =
      ({ e with faults := e.faults ++ [.streamOverflow e.stream.length 6] },
        .fault (.streamOverflow e.stream.length 6))) ∧
    (e.frozen = false → fits cap (e.stream.length + 6) → e.handle cap (.loadImm v r) =
      ({ e with stream := e.stream ++ [(0xC7 : Byte), 0b11000000 ||| ((0b000 : Byte) <<< 3) ||| (regCode r).setWidth 8,
          v.extractLsb' 0 8, v.extractLsb' 8 8, v.extractLsb' 16 8, v.extractLsb' 24 8] }, .ok))

/-- R76, R77: `SoftInt` on a frozen stream, past a finite capacity, and otherwise. The two faults are the spec's own
decisions D6 and D4, their order D10. -/
def Obligations.SoftIntRequestAppendsTwoBytesOrFaults : Prop :=
  ∀ (cap : Option Nat) (n : Byte) (e : EncState),
    (e.frozen = true → e.handle cap (.softInt n) =
      ({ e with faults := e.faults ++ [.streamFrozen (.softInt n)] }, .fault (.streamFrozen (.softInt n)))) ∧
    (e.frozen = false → ∀ k, cap = some k → k < e.stream.length + 2 → e.handle cap (.softInt n) =
      ({ e with faults := e.faults ++ [.streamOverflow e.stream.length 2] },
        .fault (.streamOverflow e.stream.length 2))) ∧
    (e.frozen = false → fits cap (e.stream.length + 2) → e.handle cap (.softInt n) =
      ({ e with stream := e.stream ++ [0xCD, n] }, .ok))

/-- R84, R13: Freeze sets `frozen`, is answered `ok` and returns the stream beside the response; a second Freeze is
answered the same and changes nothing; no other request returns anything (the spec's own decisions D6, D12 and D19).
State.returned, which holds what a request returned, is log entry 25 (DESIGN CHOICE). -/
def Obligations.FreezeReturnsStreamAndIsIdempotent : Prop :=
  ∀ (cap : Option Nat) (e : EncState),
    e.handle cap .freeze = ({ e with frozen := true }, .ok) ∧ e.returned (.ok .freeze) = some e.stream ∧
    (e.handle cap .freeze).1.returned (.ok .freeze) = some e.stream ∧
    (e.frozen = true → e.handle cap .freeze = (e, .ok)) ∧
    (∀ conv, conv ≠ .ok .freeze → e.returned conv = none)

/-- R94, R97: a faulted request answers its fault, records it and changes nothing else; no request clears `faults`;
and what is recorded has no bearing on later requests (the spec's own decision D9). -/
def Obligations.FaultedRequestOnlyRecordsItsFault : Prop :=
  ∀ (cap : Option Nat) (conv : Except Fault Request) (e : EncState),
    (∀ f, (e.submit cap conv).2 = .fault f →
      (e.submit cap conv).1 = { e with faults := e.faults ++ [f] } ∧ e.returned conv = none) ∧
    e.faults <+: (e.submit cap conv).1.faults ∧
    (∀ fs : List Fault,
      ((EncState.submit cap conv { e with faults := fs }).1.stream = (e.submit cap conv).1.stream) ∧
      ((EncState.submit cap conv { e with faults := fs }).1.frozen = (e.submit cap conv).1.frozen) ∧
      ((EncState.submit cap conv { e with faults := fs }).2 = (e.submit cap conv).2) ∧
      (EncState.returned conv { e with faults := fs } = e.returned conv))

/-- R13, R68: a step in the Host's turn with an encoder operation in front submits exactly that request, converted at
the port, under the machine's capacity, and changes only the encoder's record, the response, what is returned with it
and the queue. An operation with an integer operand goes through its conversion of R68; one without is as it stands.
The Host's queue is the model's own (DESIGN CHOICE, log entry 12); State.returned, which holds what a request
returned, is log entry 25 (DESIGN CHOICE). -/
def Obligations.HostStepSubmitsOneRequest : Prop :=
  (∀ (s : State) (op : HostOp) (q : List HostOp) (conv : Except Fault Request),
    s.hostTurn → s.hostQueue = op :: q → portRequest op = some conv →
    step s = .next { s with
      hostQueue := q
      enc := (s.enc.submit s.streamCapacity conv).1
      response := some (s.enc.submit s.streamCapacity conv).2
      returned := s.enc.returned conv }) ∧
  (∀ r : Request, portRequest (.request r) = some (.ok r)) ∧
  (∀ (v : Int) (dest : Register), portRequest (.loadInt v dest) = some ((toWord32 v).map fun w => .loadImm w dest)) ∧
  (∀ (p : Int) (dest : Register),
    portRequest (.loadAddr p dest) = some ((toWord32Addr p).map fun w => .loadImm w dest)) ∧
  (∀ n : Int, portRequest (.softIntInt n) = some ((toByte n).map fun b => .softInt b))

/-- R68: in the Host's turn, an operation with an integer operand in its range steps as the request for the word or
byte whose reading is that integer, and one out of range is answered and recorded as `UnsupportedOperand` of it, with
nothing emitted, truncated or otherwise changed. That a value out of range faults is the spec's decision D8. The
Host's queue is the model's own (DESIGN CHOICE, log entry 12); State.returned, which holds what a request returned, is
log entry 25 (DESIGN CHOICE). -/
def Obligations.HostIntegerOperationsConvertOrFault : Prop :=
  ∀ (s : State) (v : Int) (dest : Register) (q : List HostOp), s.hostTurn →
    (s.hostQueue = .loadInt v dest :: q →
      (-(2 ^ 31) ≤ v ∧ v ≤ 2 ^ 31 - 1 → ∃ w : Word32, w.toInt = v ∧
        step s = step { s with hostQueue := .request (.loadImm w dest) :: q }) ∧
      (v < -(2 ^ 31) ∨ 2 ^ 31 - 1 < v → step s = .next (s.afterFailedConversion v q))) ∧
    (s.hostQueue = .loadAddr v dest :: q →
      (0 ≤ v ∧ v ≤ 2 ^ 32 - 1 → ∃ w : Word32, (w.toNat : Int) = v ∧
        step s = step { s with hostQueue := .request (.loadImm w dest) :: q }) ∧
      (v < 0 ∨ 2 ^ 32 - 1 < v → step s = .next (s.afterFailedConversion v q))) ∧
    (s.hostQueue = .softIntInt v :: q →
      (0 ≤ v ∧ v ≤ 255 → ∃ b : Byte, (b.toNat : Int) = v ∧
        step s = step { s with hostQueue := .request (.softInt b) :: q }) ∧
      (v < 0 ∨ 255 < v → step s = .next (s.afterFailedConversion v q)))

/-- R16, R20, R37, R57, R116: in the Host's turn, the encode requests of a program on an unfrozen stream with room run
to their end, one step a request: the program's bytes are appended in order, no fault is recorded, and nothing else
changes. The Host's queue is the model's own (DESIGN CHOICE, log entry 12). -/
def Obligations.EncodeRequestsEmitTheProgram : Prop :=
  ∀ (is : List Instr) (q : List HostOp) (s : State),
    s.hostTurn → s.enc.frozen = false → fits s.streamCapacity (s.enc.stream.length + (encodeAll is).length) →
    s.hostQueue = is.map (fun i => .request (encodeRequest i)) ++ q →
    ∃ t : State, Host.Core.run core is.length s = .next t ∧
      t = { s with
        enc := { s.enc with stream := s.enc.stream ++ encodeAll is }
        hostQueue := q
        response := t.response
        returned := t.returned }

/-- R15: over every step of the machine the old stream is a prefix of the new one, and a step that changes the stream
is the Host's, with an encode request in front of its queue (converted at the port, R68), on an unfrozen stream,
answered `ok`; it appends exactly that request's instruction. That the stream is not frozen is R17 with the spec's own
decision D6; the bytes appended are R72's and R76's; the queue is the model's own (DESIGN CHOICE, log entry 12). -/
def Obligations.StreamOnlyGrowsByEncodeRequests : Prop :=
  ∀ s t : State, step s = .next t →
    s.enc.stream <+: t.enc.stream ∧
    (t.enc.stream = s.enc.stream ∨
      (s.hostTurn ∧ s.enc.frozen = false ∧ t.response = some .ok ∧
        ∃ i op q, s.hostQueue = op :: q ∧ portRequest op = some (.ok (encodeRequest i)) ∧
          t.enc.stream = s.enc.stream ++ encode i))

/-- R17, R113: Freeze freezes the stream; a frozen stream stays frozen and unchanged over every step, and an encode
request is answered `StreamFrozen`, with the stream unchanged (the spec's own decision D6). The Host's queue is the
model's own (DESIGN CHOICE, log entry 12); State.returned, which holds what a request returned, is log entry 25
(DESIGN CHOICE). -/
def Obligations.FrozenStreamStaysAndRejectsEncodes : Prop :=
  (∀ (cap : Option Nat) (e : EncState), (e.handle cap .freeze).1.frozen = true) ∧
  (∀ s t : State, step s = .next t → s.enc.frozen = true →
    t.enc.frozen = true ∧ t.enc.stream = s.enc.stream) ∧
  (∀ (s : State) (i : Instr) (q : List HostOp), s.hostTurn → s.enc.frozen = true →
    s.hostQueue = .request (encodeRequest i) :: q →
    step s = .next { s with
      hostQueue := q
      enc := { s.enc with faults := s.enc.faults ++ [.streamFrozen (encodeRequest i)] }
      response := some (.fault (.streamFrozen (encodeRequest i)))
      returned := none })

/-- R96, R97: no step clears a recorded request fault, and a step records at most one. No step changes the capacity
parameter (R19: no configuration input; that it stands in State is log entry 7). -/
def Obligations.StepsKeepRecordedFaultsAndCapacity : Prop :=
  ∀ s t : State, step s = .next t →
    s.enc.faults <+: t.enc.faults ∧ t.enc.faults.length ≤ s.enc.faults.length + 1 ∧
    t.streamCapacity = s.streamCapacity

/-- R97, R98, R89: a run with something recorded against it (a request fault, a failed allocation, an XR fault or
refusal) never becomes clean again. Stated in the invariant, which holds `status` at its start value until Invoke sets
it (log entry 14). -/
def Obligations.RecordedFaultsAreNeverCleared : Prop :=
  ∀ s t : State, s.Inv → step s = .next t → t.clean = true → s.clean = true

/-! ## The harness -/

/-- R110, R88: the phases follow one another in R110's order only, Acquire comes after Freeze, and control never
returns from the XR. -/
def Obligations.PhasesFollowHandoffOrder : Prop :=
  ∀ s t : State, step s = .next t →
    t.phase = s.phase ∨
    (s.phase = .encoding ∧ s.enc.frozen = true ∧ (t.phase = .acquired ∨ ∃ d, t.phase = .allocationFailed d)) ∨
    (s.phase = .acquired ∧ t.phase = .populated) ∨
    (s.phase = .populated ∧ t.phase = .invoked)

/-- R85, R89, R90: Acquire gives a region of at least the size asked for (of size 0 for 0), or ends the process with
the non-zero sentinel, with no region; either way only the queue, the phase, the region and the model's own counter
`draws` change. The model's own, and no rule's: that the region lies in the address space (log entry 8), that a
request of 0 gives exactly 0 (log entry 9), and that after a failure every further step answers that `AllocationError`
(DESIGN CHOICE, log entry 11). The Host's queue is the model's own (DESIGN CHOICE, log entry 12). -/
def Obligations.AcquireGivesRegionOrEndsProcess : Prop :=
  ∀ (s : State) (n : Nat) (q : List HostOp),
    s.phase = .encoding → s.enc.frozen = true → s.hostQueue = .acquire n :: q →
    ∃ t : State, step s = .next t ∧
      t = { s with hostQueue := q, phase := t.phase, region := t.region, draws := t.draws } ∧
      ((t.phase = .acquired ∧ ∃ r, t.region = some r ∧ n ≤ r.size ∧ (n = 0 → r.size = 0) ∧
          r.base.toNat + r.size ≤ 2 ^ 32) ∨
        (∃ d, t.phase = .allocationFailed d ∧ t.region = s.region ∧
          t.exitStatus = some Config.allocFailStatus.toInt ∧ Config.allocFailStatus.toInt ≠ 0 ∧
          step t = .fault (.allocationError d)))

/-- R86: Populate copies the stream to the start of the region and writes nothing else; a region smaller than the
stream is refused. The Host's queue is the model's own (DESIGN CHOICE, log entry 12). -/
def Obligations.PopulateCopiesStreamOrRefuses : Prop :=
  ∀ (s : State) (r : Region) (q : List HostOp),
    s.phase = .acquired → s.region = some r → s.hostQueue = .populate :: q →
    r.base.toNat + r.size ≤ 2 ^ 32 →
    (r.size < s.enc.stream.length →
      step s = .refused (.regionUndersized r.size s.enc.stream.length)) ∧
    (s.enc.stream.length ≤ r.size →
      ∃ t : State, step s = .next t ∧ t.mem.Holds r.base s.enc.stream ∧
        s.mem.SameOutside t.mem r.base s.enc.stream.length ∧
        t = { s with hostQueue := q, phase := .populated, mem := t.mem })

/-- R87: Invoke starts the XR at the region's first byte with A, B, C and D unwritten, memory as it is, running; apart
from the XR only the queue and the phase change. The Host's queue is the model's own (DESIGN CHOICE, log entry 12). -/
def Obligations.InvokeStartsXrAtRegionBase : Prop :=
  ∀ (s : State) (r : Region) (q : List HostOp),
    s.phase = .populated → s.region = some r → s.hostQueue = .invoke :: q →
    ∃ t : State, step s = .next t ∧ t.pc = r.base ∧ (∀ x : Register, t.regs.get x = none) ∧
      t.mem = s.mem ∧ t.status = .running ∧
      t = { s with hostQueue := q, phase := .invoked, regs := t.regs, pc := r.base, status := .running }

/-- R88, R83: once the XR is invoked, what the Host has queued has no bearing on a step, and a step leaves the
encoder, the response port, the region and the phase as they are. For `int n` the two steps agree only because the
model's Kernel is a function of the draw number (DESIGN CHOICE, log entry 4), where R79 says `choose`: both then meet
the same outcome. The Host's queue is the model's own (DESIGN CHOICE, log entry 12). -/
def Obligations.HostHasNoMoveAfterInvoke : Prop :=
  ∀ (s : State) (q : List HostOp), s.phase = .invoked →
    (∀ t, step s = .next t →
      step { s with hostQueue := q } = .next { t with hostQueue := q } ∧
      t.enc = s.enc ∧ t.streamCapacity = s.streamCapacity ∧ t.response = s.response ∧
      t.returned = s.returned ∧ t.hostQueue = s.hostQueue ∧ t.phase = .invoked ∧
      t.region = s.region) ∧
    (∀ f, step s = .fault f → step { s with hostQueue := q } = .fault f) ∧
    (∀ f, step s = .refused f → step { s with hostQueue := q } = .refused f)

/-- R86, R87, R33, R16: from any state of the invariant that holds a region large enough for a non-empty emitted
stream, Populate and Invoke leave the XR executing at the region's base over exactly the stream's bytes, and its first
step executes the program's first instruction. The Host's queue is the model's own (DESIGN CHOICE, log entry 12), and
that memory lists nothing before Populate is log entry 17 (DESIGN CHOICE). -/
def Obligations.HandoffExecutesFirstInstruction : Prop :=
  ∀ (s : State) (r : Region) (q : List HostOp) (i : Instr) (is : List Instr),
    s.Inv → s.phase = .acquired → s.region = some r → s.hostQueue = .populate :: .invoke :: q →
    s.enc.stream = encodeAll (i :: is) → s.enc.stream.length ≤ r.size →
    ∃ t : State, Host.Core.run core 2 s = .next t ∧ t.executing ∧ t.pc = r.base ∧ t.regs = RegFile.unwritten ∧
      t.mem.Holds r.base s.enc.stream ∧
      (∀ a, (∀ k, k < s.enc.stream.length → a ≠ r.base + BitVec.ofNat 32 k) → Memory.read t.mem a = none) ∧
      step t = exec i t

/-! ## The XR: fetch and dispatch -/

/-- A step of an executing XR whose bytes at the pc decode to an instruction is `exec` of it, with nothing around it
(R78). Pc and addresses wrap modulo 2^32 (PRESUMED, log entry 27). -/
def Obligations.StepRunsDecodedInstruction : Prop :=
  ∀ (s : State) (i : Instr) (rest : List Byte), s.executing →
    decode (fetchWindow s.mem s.pc maxInstrBytes) = .ok (i, rest) → step s = exec i s

/-- R16, R112: over memory that holds a program's bytes at a base, an executing XR whose pc stands at an instruction's
offset executes that instruction, at every base; and at the program's end, with no byte there, it faults. Pc and
addresses wrap modulo 2^32 (PRESUMED, log entry 27). -/
def Obligations.XrExecutesStreamInEmissionOrder : Prop :=
  ∀ (s : State) (base : Word32) (pre post : List Instr), s.executing →
    s.mem.Holds base (encodeAll (pre ++ post)) → s.pc = base + BitVec.ofNat 32 (encodeAll pre).length →
    (∀ i is, post = i :: is → step s = exec i s) ∧
    (post = [] → Memory.read s.mem s.pc = none → step s = .next { s with status := .faulted (.execPastEnd s.pc) })

/-- R73, R75, R116: a program of loads runs to its end, one step an instruction; each register then holds the last
value loaded into it, or what it held, and the pc has advanced by 6 for each load. Pc and addresses wrap modulo 2^32
(PRESUMED, log entry 27). -/
def Obligations.LoadProgramLeavesLastValues : Prop :=
  ∀ (ls : List (Register × Word32)) (s : State), s.executing →
    s.mem.Holds s.pc (encodeAll (ls.map fun l => .mov l.1 l.2)) →
    ∃ t : State, Host.Core.run core ls.length s = .next t ∧
      (∀ r, t.regs.get r =
        match ls.reverse.find? (fun l => decide (l.1 = r)) with
        | some l => some l.2
        | none => s.regs.get r) ∧
      t = { s with regs := t.regs, pc := s.pc + BitVec.ofNat 32 (6 * ls.length) }

/-- R78, R61: an absent opcode byte is `ExecPastEnd`, and an opcode byte other than C7 and CD is refused with that
byte; in both only `status` changes (the spec's own decisions D22 and D23). The bytes recorded with a refusal are log
entry 18 (DEDUCED). -/
def Obligations.XrStopsOnAbsentOrUnknownOpcode : Prop :=
  ∀ s : State, s.executing →
    (Memory.read s.mem s.pc = none → step s = .next { s with status := .faulted (.execPastEnd s.pc) }) ∧
    (∀ b, Memory.read s.mem s.pc = some b → b ≠ 0xC7 → b ≠ 0xCD →
      step s = .next { s with status := .refused (.unmodelledInstruction s.pc [b]) })

/-- R73: a step with C7 at the pc. An absent byte among the six faults, whatever the addressing byte; a Format M
instance loads its immediate; every other addressing byte is refused with the six bytes (the fault and the refusal are
the spec's own decisions D22 and D23). The bytes recorded with a refusal are log entry 18 (DEDUCED); pc and addresses
wrap modulo 2^32 (PRESUMED, log entry 27). -/
def Obligations.XrStepOnLoadOpcode : Prop :=
  ∀ s : State, s.executing → Memory.read s.mem s.pc = some 0xC7 →
    ((∃ k, k < 6 ∧ Memory.read s.mem (s.pc + BitVec.ofNat 32 k) = none) →
      step s = .next { s with status := .faulted (.execPastEnd s.pc) }) ∧
    (∀ b1 b2 b3 b4 b5 : Byte, s.mem.Holds s.pc [0xC7, b1, b2, b3, b4, b5] →
      (∀ r, modField b1 = 0b11 → regField b1 = 0b000 → rmField b1 = regCode r →
        step s = .next { s with
          regs := s.regs.set r
            (b2.setWidth 32 ||| b3.setWidth 32 <<< 8 ||| b4.setWidth 32 <<< 16 ||| b5.setWidth 32 <<< 24)
          pc := s.pc + 6 }) ∧
      (modField b1 ≠ 0b11 ∨ regField b1 ≠ 0b000 ∨ 0b011 < (rmField b1).toNat →
        step s = .next { s with
          status := .refused (.unmodelledInstruction s.pc [0xC7, b1, b2, b3, b4, b5]) }))

/-- R79: a step with CD at the pc. An absent vector faults; otherwise the Kernel's outcome for the vector, the
registers and memory is taken, the same way for every vector. Nothing is said of the model's own counter `draws`. The
Kernel is the spec's OPEN parameter D15, the fault its decision D22. The Kernel as a function of the draw number is
log entry 4 and the memory of a return, given by its bytes, log entry 5 (both DESIGN CHOICE); that Terminate leaves
pc, registers and memory is log entry 29 (DEDUCED); pc and addresses wrap modulo 2^32 (PRESUMED, log entry 27). -/
def Obligations.XrStepOnInterruptOpcode : Prop :=
  ∀ s : State, s.executing → Memory.read s.mem s.pc = some 0xCD →
    (Memory.read s.mem (s.pc + 1) = none → step s = .next { s with status := .faulted (.execPastEnd s.pc) }) ∧
    (∀ n, Memory.read s.mem (s.pc + 1) = some n → ∃ d : Nat,
      match Config.kernelService s.draws n s.regs s.mem with
      | .ret x cells =>
        step s = .next { s with regs := x, mem := Memory.ofCells cells, pc := s.pc + 2, draws := d }
      | .terminate code => step s = .next { s with status := .terminated code, draws := d }
      | .fault info => step s = .next { s with status := .faulted (.kernelFault n info), draws := d })

/-- R98: an XR fault or refusal changes `status` alone (and the model's own counter, log entry 6), and a run that is
terminated, faulted or refused has no further step (the spec's own decision D22). -/
def Obligations.XrFaultIsPreciseAndFinal : Prop :=
  (∀ s t : State, s.executing → step s = .next t →
    (∀ f, t.status = .faulted f → t = { s with status := .faulted f, draws := t.draws }) ∧
    (∀ f, t.status = .refused f → t = { s with status := .refused f, draws := t.draws })) ∧
  (∀ s : State, s.phase = .invoked → s.status ≠ .running → ∀ t, step s ≠ .next t)

/-- R88: a run whose XR is terminated has ended the process with that code. That a step then answers this refusal is
the model's choice (log entry 11). -/
def Obligations.TerminatedRunEndsProcessWithItsCode : Prop :=
  ∀ (s : State) (code : ExitStatus), s.phase = .invoked → s.status = .terminated code →
    s.exitStatus = some code ∧ step s = .refused (.processEnded code)

/-- R26 (which the spec derives from R16 and R51): Invoke puts the pc at the region's base; over an XR step that goes
on the pc advances by the length of the instruction there, and over one that stops the run it stays. That Terminate
leaves pc, registers and memory is log entry 29 (DEDUCED); pc and addresses wrap modulo 2^32 (PRESUMED, log entry
27). -/
def Obligations.PcAdvancesByInstructionLength : Prop :=
  (∀ (r : Region) (s : State), (invoke r s).pc = r.base) ∧
  (∀ s t : State, s.executing → step s = .next t →
    (t.status = .running → ∃ i rest, decode (fetchWindow s.mem s.pc maxInstrBytes) = .ok (i, rest) ∧
      t.pc = s.pc + BitVec.ofNat 32 (encode i).length) ∧
    (t.status ≠ .running → t.pc = s.pc))

/-- R24: over an XR step a register changes only if the instruction at the pc is a load into it, or an interrupt. -/
def Obligations.OnlyLoadAndKernelWriteRegisters : Prop :=
  ∀ (s t : State) (r : Register), s.executing → step s = .next t → t.regs.get r ≠ s.regs.get r →
    (∃ v rest, decode (fetchWindow s.mem s.pc maxInstrBytes) = .ok (.mov r v, rest) ∧ t.regs.get r = some v) ∨
    (∃ n rest, decode (fetchWindow s.mem s.pc maxInstrBytes) = .ok (.int n, rest))

/-- R40, R41, R45: over every step of the machine memory changes only by Populate or by an interrupt. The Host's queue
is the model's own (DESIGN CHOICE, log entry 12). -/
def Obligations.OnlyPopulateAndKernelWriteMemory : Prop :=
  ∀ s t : State, step s = .next t → t.mem ≠ s.mem →
    (s.phase = .acquired ∧ t.phase = .populated ∧ ∃ q, s.hostQueue = .populate :: q) ∨
    (s.executing ∧ ∃ n rest, decode (fetchWindow s.mem s.pc maxInstrBytes) = .ok (.int n, rest))

/-! ## The XR: the two instructions -/

/-- R73: `mov r, imm32` completes in every state: the register holds the whole immediate and the pc has advanced by 6.
Its frame: the other registers, every byte of memory, and all the rest are unchanged. Pc and addresses wrap modulo
2^32 (PRESUMED, log entry 27). -/
def Obligations.LoadWritesRegisterAndNothingElse : Prop :=
  ∀ (r : Register) (imm : Word32) (s : State), ∃ t : State, exec (.mov r imm) s = .next t ∧
    t.regs.get r = some imm ∧ t.pc = s.pc + 6 ∧
    (∀ q, q ≠ r → t.regs.get q = s.regs.get q) ∧
    (∀ a, Memory.read t.mem a = Memory.read s.mem a) ∧
    t.enc = s.enc ∧ t.streamCapacity = s.streamCapacity ∧ t.response = s.response ∧ t.returned = s.returned ∧
    t.hostQueue = s.hostQueue ∧ t.phase = s.phase ∧
    t.region = s.region ∧ t.status = s.status ∧ t.draws = s.draws

/-- R75: of two loads into one register the later stands, and the register does not depend on the earlier. -/
def Obligations.LaterLoadReplacesEarlier : Prop :=
  ∀ (r : Register) (v w : Word32) (s : State), ∃ t u u' : State,
    exec (.mov r v) s = .next t ∧ exec (.mov r w) t = .next u ∧ exec (.mov r w) s = .next u' ∧
    u.regs = u'.regs ∧ u.regs.get r = some w

/-- R79, R80: `int n` completes in every state, for every vector, with whatever outcome the Kernel gives. A return
replaces the registers and memory (each address then reads as the last byte the outcome lists for it, or is absent)
and resumes at `pc + 2` (decision D29); termination and a Kernel fault leave registers, memory and pc. Its frame: the
encoder, the response port, the Host's queue, the phase and the region are unchanged (`draws` is the model's own
counter, log entry 6). The Kernel as a function of the draw number is log entry 4, and that a returned memory is given
by a list of bytes, of which the later stands and an unlisted address is absent, log entry 5 (both DESIGN CHOICE);
that Terminate leaves pc, registers and memory is log entry 29 (DEDUCED); pc and addresses wrap modulo 2^32 (PRESUMED,
log entry 27). -/
def Obligations.InterruptTakesKernelOutcome : Prop :=
  ∀ (n : Byte) (s : State), ∃ t : State, exec (.int n) s = .next t ∧
    t.enc = s.enc ∧ t.streamCapacity = s.streamCapacity ∧ t.response = s.response ∧ t.returned = s.returned ∧
    t.hostQueue = s.hostQueue ∧ t.phase = s.phase ∧ t.region = s.region ∧
    t.draws = s.draws + 1 ∧
    (match Config.kernelService s.draws n s.regs s.mem with
      | .ret x cells =>
        t.regs = x ∧ t.pc = s.pc + 2 ∧ t.status = s.status ∧
        (∀ a, Memory.read t.mem a = (cells.reverse.find? (fun c => decide (c.1 = a))).map (fun c => c.2))
      | .terminate code =>
        t.status = .terminated code ∧ t.regs = s.regs ∧ t.pc = s.pc ∧
        (∀ a, Memory.read t.mem a = Memory.read s.mem a)
      | .fault info =>
        t.status = .faulted (.kernelFault n info) ∧ t.regs = s.regs ∧ t.pc = s.pc ∧
        (∀ a, Memory.read t.mem a = Memory.read s.mem a))

/-- R89, D21: under the premise that the Kernel ends no process with the sentinel (log entry 10), a run that `int n`
terminates has another code, and the sentinel is not 0. -/
def Obligations.SentinelDiffersFromTerminationCodes : Prop :=
  ∀ (kernel : KernelService) (sentinel : NonZeroInt) (n : Byte) (s t : State) (code : ExitStatus),
    SentinelDistinct kernel sentinel → s.status = .running → execIntWith kernel n s = .next t →
    t.status = .terminated code → code ≠ sentinel.toInt ∧ sentinel.toInt ≠ 0

/-- R89, R88, D21: the machine's own Kernel ends no process with the sentinel, so in the invariant the process exit
status is the sentinel, which is not 0, exactly when Acquire has failed. That no code of any program is the sentinel
is how the model takes D21's constraint (log entry 10), and that a run that ended faulted or refused has no exit status
is its choice (log entry 32). -/
def Obligations.ExitStatusTellsAllocationFailure : Prop :=
  SentinelDistinct Config.kernelService Config.allocFailStatus ∧ Config.allocFailStatus.toInt ≠ 0 ∧
  ∀ s : State, s.Inv →
    (s.exitStatus = some Config.allocFailStatus.toInt ↔ ∃ d, s.phase = .allocationFailed d)

/-- R82, D16: under the named premise `LinuxI386Int80`, `int 0x80` with A = 1 ends the run whatever B is, with B's
value as its code where B has been written (read unsigned, log entry 19), and with A = 4 it returns to the next
instruction, of whose bytes nothing is said (log entry 31). The premise is about a Kernel; the spec's own Kernel is open. -/
def Obligations.LinuxExitTerminatesWithB : Prop :=
  ∀ (kernel : KernelService) (s : State), LinuxI386Int80 kernel →
    (s.regs.get .a = some 1 →
      ∃ (t : State) (code : ExitStatus), execIntWith kernel 0x80 s = .next t ∧ t.status = .terminated code ∧
        (∀ b, s.regs.get .b = some b → code = b.toNat) ∧ t.regs = s.regs) ∧
    (s.regs.get .a = some 4 →
      ∃ t : State, execIntWith kernel 0x80 s = .next t ∧ t.status = s.status ∧ t.pc = s.pc + 2)
end

