-- ==== Sys2Proof/Laws/Memory.lean ====
section
/-! SUPPORT. The memory laws: a read after a write, and that every memory operation keeps the canonical form. -/

namespace Sys2Proof.Machine.Memory

@[simp] theorem lookup_nil (a : Nat) : lookup [] a = none := rfl

@[simp] theorem read_nil (a : Word32) : read [] a = none := rfl

theorem lookup_insert (m : Memory) (a x : Nat) (b : Byte) :
    lookup (insert m a b) x = if x = a then some b else lookup m x := by
  induction m with
  | nil => simp [insert, lookup, eq_comm]
  | cons c m ih =>
    obtain ⟨k, v⟩ := c
    by_cases h1 : a < k
    · simp [insert, h1, lookup, eq_comm (a := a)]
    · by_cases h2 : a = k
      · subst h2
        by_cases hx : a = x <;> simp [insert, lookup, hx, eq_comm (a := x)]
      · by_cases hx : k = x
        · subst hx
          simp [insert, h1, h2, lookup, eq_comm (a := k)]
        · simp [insert, h1, h2, lookup, hx, ih]

/-- What a write leaves to read. -/
theorem read_write (m : Memory) (a x : Word32) (b : Byte) :
    read (write m a b) x = if x = a then some b else read m x := by
  simp [read, write, lookup_insert, BitVec.toNat_inj]

@[simp] theorem read_write_same (m : Memory) (a : Word32) (b : Byte) : read (write m a b) a = some b := by
  simp [read_write]

theorem read_write_other (m : Memory) {a x : Word32} (b : Byte) (h : x ≠ a) : read (write m a b) x = read m x := by
  simp [read_write, h]

theorem sortedFrom_mono {lo lo' : Nat} (h : lo' ≤ lo) (m : Memory) (hm : sortedFrom lo m = true) :
    sortedFrom lo' m = true := by
  cases m with
  | nil => rfl
  | cons c m =>
    simp only [sortedFrom, Bool.and_eq_true, decide_eq_true_eq] at hm ⊢
    exact ⟨⟨h.trans hm.1.1, hm.1.2⟩, hm.2⟩

theorem sortedFrom_insert (m : Memory) (lo a : Nat) (b : Byte) (hlo : lo ≤ a) (ha : a < 2 ^ 32)
    (hm : sortedFrom lo m = true) : sortedFrom lo (insert m a b) = true := by
  induction m generalizing lo with
  | nil => simp [insert, sortedFrom, hlo]; omega
  | cons c m ih =>
    obtain ⟨k, v⟩ := c
    simp only [sortedFrom, Bool.and_eq_true, decide_eq_true_eq] at hm
    by_cases h1 : a < k
    · simp only [insert, h1, if_true, sortedFrom, Bool.and_eq_true, decide_eq_true_eq]
      exact ⟨⟨hlo, ha⟩, ⟨by omega, hm.1.2⟩, hm.2⟩
    · by_cases h2 : a = k
      · subst h2
        simp only [insert, lt_irrefl, if_false, if_true, sortedFrom, Bool.and_eq_true, decide_eq_true_eq]
        exact ⟨hm.1, hm.2⟩
      · simp only [insert, h1, h2, if_false, sortedFrom, Bool.and_eq_true, decide_eq_true_eq]
        exact ⟨hm.1, ih (k + 1) (by omega) hm.2⟩

@[simp] theorem wf_nil : wf [] = true := rfl

theorem wf_write {m : Memory} (a : Word32) (b : Byte) (hm : wf m = true) : wf (write m a b) = true :=
  sortedFrom_insert m 0 a.toNat b (Nat.zero_le _) a.isLt hm

theorem wf_writeBytes {m : Memory} (a : Word32) (bs : List Byte) (hm : wf m = true) :
    wf (writeBytes m a bs) = true := by
  induction bs generalizing m a with
  | nil => exact hm
  | cons b bs ih => exact ih (a + 1) (wf_write a b hm)

theorem wf_foldl_write (cells : List (Word32 × Byte)) {m : Memory} (hm : wf m = true) :
    wf (cells.foldl (fun m c => write m c.1 c.2) m) = true := by
  induction cells generalizing m with
  | nil => exact hm
  | cons c cells ih => exact ih (wf_write c.1 c.2 hm)

theorem wf_ofCells (cells : List (Word32 × Byte)) : wf (ofCells cells) = true :=
  wf_foldl_write cells wf_nil

/-- Memory right after reset is in canonical form. -/
theorem wf_reset : wf State.reset.mem = true := rfl

end Sys2Proof.Machine.Memory
end

