-- ==== Sys2Proof/Laws/State.lean ====
section
/-! SUPPORT. One lemma per field per named update of State, true by unfolding, for simp. -/

namespace Sys2Proof.Machine

@[simp] theorem writeReg_enc (r : Register) (v : Word32) (s : State) : (writeReg r v s).enc = s.enc := rfl
@[simp] theorem writeReg_streamCapacity (r : Register) (v : Word32) (s : State) : (writeReg r v s).streamCapacity = s.streamCapacity := rfl
@[simp] theorem writeReg_response (r : Register) (v : Word32) (s : State) : (writeReg r v s).response = s.response := rfl
@[simp] theorem writeReg_returned (r : Register) (v : Word32) (s : State) : (writeReg r v s).returned = s.returned := rfl
@[simp] theorem writeReg_hostQueue (r : Register) (v : Word32) (s : State) : (writeReg r v s).hostQueue = s.hostQueue := rfl
@[simp] theorem writeReg_phase (r : Register) (v : Word32) (s : State) : (writeReg r v s).phase = s.phase := rfl
@[simp] theorem writeReg_region (r : Register) (v : Word32) (s : State) : (writeReg r v s).region = s.region := rfl
@[simp] theorem writeReg_mem (r : Register) (v : Word32) (s : State) : (writeReg r v s).mem = s.mem := rfl
@[simp] theorem writeReg_regs (r : Register) (v : Word32) (s : State) : (writeReg r v s).regs = s.regs.set r v := rfl
@[simp] theorem writeReg_pc (r : Register) (v : Word32) (s : State) : (writeReg r v s).pc = s.pc := rfl
@[simp] theorem writeReg_status (r : Register) (v : Word32) (s : State) : (writeReg r v s).status = s.status := rfl
@[simp] theorem writeReg_draws (r : Register) (v : Word32) (s : State) : (writeReg r v s).draws = s.draws := rfl

@[simp] theorem advancePc_enc (n : Nat) (s : State) : (advancePc n s).enc = s.enc := rfl
@[simp] theorem advancePc_streamCapacity (n : Nat) (s : State) : (advancePc n s).streamCapacity = s.streamCapacity := rfl
@[simp] theorem advancePc_response (n : Nat) (s : State) : (advancePc n s).response = s.response := rfl
@[simp] theorem advancePc_returned (n : Nat) (s : State) : (advancePc n s).returned = s.returned := rfl
@[simp] theorem advancePc_hostQueue (n : Nat) (s : State) : (advancePc n s).hostQueue = s.hostQueue := rfl
@[simp] theorem advancePc_phase (n : Nat) (s : State) : (advancePc n s).phase = s.phase := rfl
@[simp] theorem advancePc_region (n : Nat) (s : State) : (advancePc n s).region = s.region := rfl
@[simp] theorem advancePc_mem (n : Nat) (s : State) : (advancePc n s).mem = s.mem := rfl
@[simp] theorem advancePc_regs (n : Nat) (s : State) : (advancePc n s).regs = s.regs := rfl
@[simp] theorem advancePc_pc (n : Nat) (s : State) : (advancePc n s).pc = s.pc + BitVec.ofNat 32 n := rfl
@[simp] theorem advancePc_status (n : Nat) (s : State) : (advancePc n s).status = s.status := rfl
@[simp] theorem advancePc_draws (n : Nat) (s : State) : (advancePc n s).draws = s.draws := rfl

@[simp] theorem countDraw_enc (s : State) : (countDraw s).enc = s.enc := rfl
@[simp] theorem countDraw_streamCapacity (s : State) : (countDraw s).streamCapacity = s.streamCapacity := rfl
@[simp] theorem countDraw_response (s : State) : (countDraw s).response = s.response := rfl
@[simp] theorem countDraw_returned (s : State) : (countDraw s).returned = s.returned := rfl
@[simp] theorem countDraw_hostQueue (s : State) : (countDraw s).hostQueue = s.hostQueue := rfl
@[simp] theorem countDraw_phase (s : State) : (countDraw s).phase = s.phase := rfl
@[simp] theorem countDraw_region (s : State) : (countDraw s).region = s.region := rfl
@[simp] theorem countDraw_mem (s : State) : (countDraw s).mem = s.mem := rfl
@[simp] theorem countDraw_regs (s : State) : (countDraw s).regs = s.regs := rfl
@[simp] theorem countDraw_pc (s : State) : (countDraw s).pc = s.pc := rfl
@[simp] theorem countDraw_status (s : State) : (countDraw s).status = s.status := rfl
@[simp] theorem countDraw_draws (s : State) : (countDraw s).draws = s.draws + 1 := rfl

@[simp] theorem raiseXr_enc (f : Fault) (s : State) : (raiseXr f s).enc = s.enc := rfl
@[simp] theorem raiseXr_streamCapacity (f : Fault) (s : State) : (raiseXr f s).streamCapacity = s.streamCapacity := rfl
@[simp] theorem raiseXr_response (f : Fault) (s : State) : (raiseXr f s).response = s.response := rfl
@[simp] theorem raiseXr_returned (f : Fault) (s : State) : (raiseXr f s).returned = s.returned := rfl
@[simp] theorem raiseXr_hostQueue (f : Fault) (s : State) : (raiseXr f s).hostQueue = s.hostQueue := rfl
@[simp] theorem raiseXr_phase (f : Fault) (s : State) : (raiseXr f s).phase = s.phase := rfl
@[simp] theorem raiseXr_region (f : Fault) (s : State) : (raiseXr f s).region = s.region := rfl
@[simp] theorem raiseXr_mem (f : Fault) (s : State) : (raiseXr f s).mem = s.mem := rfl
@[simp] theorem raiseXr_regs (f : Fault) (s : State) : (raiseXr f s).regs = s.regs := rfl
@[simp] theorem raiseXr_pc (f : Fault) (s : State) : (raiseXr f s).pc = s.pc := rfl
@[simp] theorem raiseXr_status (f : Fault) (s : State) : (raiseXr f s).status = .faulted f := rfl
@[simp] theorem raiseXr_draws (f : Fault) (s : State) : (raiseXr f s).draws = s.draws := rfl

@[simp] theorem refuseXr_enc (r : Refusal) (s : State) : (refuseXr r s).enc = s.enc := rfl
@[simp] theorem refuseXr_streamCapacity (r : Refusal) (s : State) : (refuseXr r s).streamCapacity = s.streamCapacity := rfl
@[simp] theorem refuseXr_response (r : Refusal) (s : State) : (refuseXr r s).response = s.response := rfl
@[simp] theorem refuseXr_returned (r : Refusal) (s : State) : (refuseXr r s).returned = s.returned := rfl
@[simp] theorem refuseXr_hostQueue (r : Refusal) (s : State) : (refuseXr r s).hostQueue = s.hostQueue := rfl
@[simp] theorem refuseXr_phase (r : Refusal) (s : State) : (refuseXr r s).phase = s.phase := rfl
@[simp] theorem refuseXr_region (r : Refusal) (s : State) : (refuseXr r s).region = s.region := rfl
@[simp] theorem refuseXr_mem (r : Refusal) (s : State) : (refuseXr r s).mem = s.mem := rfl
@[simp] theorem refuseXr_regs (r : Refusal) (s : State) : (refuseXr r s).regs = s.regs := rfl
@[simp] theorem refuseXr_pc (r : Refusal) (s : State) : (refuseXr r s).pc = s.pc := rfl
@[simp] theorem refuseXr_status (r : Refusal) (s : State) : (refuseXr r s).status = .refused r := rfl
@[simp] theorem refuseXr_draws (r : Refusal) (s : State) : (refuseXr r s).draws = s.draws := rfl

@[simp] theorem terminateXr_enc (c : ExitStatus) (s : State) : (terminateXr c s).enc = s.enc := rfl
@[simp] theorem terminateXr_streamCapacity (c : ExitStatus) (s : State) : (terminateXr c s).streamCapacity = s.streamCapacity := rfl
@[simp] theorem terminateXr_response (c : ExitStatus) (s : State) : (terminateXr c s).response = s.response := rfl
@[simp] theorem terminateXr_returned (c : ExitStatus) (s : State) : (terminateXr c s).returned = s.returned := rfl
@[simp] theorem terminateXr_hostQueue (c : ExitStatus) (s : State) : (terminateXr c s).hostQueue = s.hostQueue := rfl
@[simp] theorem terminateXr_phase (c : ExitStatus) (s : State) : (terminateXr c s).phase = s.phase := rfl
@[simp] theorem terminateXr_region (c : ExitStatus) (s : State) : (terminateXr c s).region = s.region := rfl
@[simp] theorem terminateXr_mem (c : ExitStatus) (s : State) : (terminateXr c s).mem = s.mem := rfl
@[simp] theorem terminateXr_regs (c : ExitStatus) (s : State) : (terminateXr c s).regs = s.regs := rfl
@[simp] theorem terminateXr_pc (c : ExitStatus) (s : State) : (terminateXr c s).pc = s.pc := rfl
@[simp] theorem terminateXr_status (c : ExitStatus) (s : State) : (terminateXr c s).status = .terminated c := rfl
@[simp] theorem terminateXr_draws (c : ExitStatus) (s : State) : (terminateXr c s).draws = s.draws := rfl

@[simp] theorem returnFromKernel_enc (x : RegFile) (m : Memory) (s : State) : (returnFromKernel x m s).enc = s.enc := rfl
@[simp] theorem returnFromKernel_streamCapacity (x : RegFile) (m : Memory) (s : State) : (returnFromKernel x m s).streamCapacity = s.streamCapacity := rfl
@[simp] theorem returnFromKernel_response (x : RegFile) (m : Memory) (s : State) : (returnFromKernel x m s).response = s.response := rfl
@[simp] theorem returnFromKernel_returned (x : RegFile) (m : Memory) (s : State) : (returnFromKernel x m s).returned = s.returned := rfl
@[simp] theorem returnFromKernel_hostQueue (x : RegFile) (m : Memory) (s : State) : (returnFromKernel x m s).hostQueue = s.hostQueue := rfl
@[simp] theorem returnFromKernel_phase (x : RegFile) (m : Memory) (s : State) : (returnFromKernel x m s).phase = s.phase := rfl
@[simp] theorem returnFromKernel_region (x : RegFile) (m : Memory) (s : State) : (returnFromKernel x m s).region = s.region := rfl
@[simp] theorem returnFromKernel_mem (x : RegFile) (m : Memory) (s : State) : (returnFromKernel x m s).mem = m := rfl
@[simp] theorem returnFromKernel_regs (x : RegFile) (m : Memory) (s : State) : (returnFromKernel x m s).regs = x := rfl
@[simp] theorem returnFromKernel_pc (x : RegFile) (m : Memory) (s : State) : (returnFromKernel x m s).pc = s.pc + 2#32 := rfl
@[simp] theorem returnFromKernel_status (x : RegFile) (m : Memory) (s : State) : (returnFromKernel x m s).status = s.status := rfl
@[simp] theorem returnFromKernel_draws (x : RegFile) (m : Memory) (s : State) : (returnFromKernel x m s).draws = s.draws := rfl

@[simp] theorem submitRequest_enc (q : Except Fault Request) (s : State) : (submitRequest q s).enc = (s.enc.submit s.streamCapacity q).1 := rfl
@[simp] theorem submitRequest_streamCapacity (q : Except Fault Request) (s : State) : (submitRequest q s).streamCapacity = s.streamCapacity := rfl
@[simp] theorem submitRequest_response (q : Except Fault Request) (s : State) : (submitRequest q s).response = some (s.enc.submit s.streamCapacity q).2 := rfl
@[simp] theorem submitRequest_returned (q : Except Fault Request) (s : State) : (submitRequest q s).returned = s.enc.returned q := rfl
@[simp] theorem submitRequest_hostQueue (q : Except Fault Request) (s : State) : (submitRequest q s).hostQueue = s.hostQueue := rfl
@[simp] theorem submitRequest_phase (q : Except Fault Request) (s : State) : (submitRequest q s).phase = s.phase := rfl
@[simp] theorem submitRequest_region (q : Except Fault Request) (s : State) : (submitRequest q s).region = s.region := rfl
@[simp] theorem submitRequest_mem (q : Except Fault Request) (s : State) : (submitRequest q s).mem = s.mem := rfl
@[simp] theorem submitRequest_regs (q : Except Fault Request) (s : State) : (submitRequest q s).regs = s.regs := rfl
@[simp] theorem submitRequest_pc (q : Except Fault Request) (s : State) : (submitRequest q s).pc = s.pc := rfl
@[simp] theorem submitRequest_status (q : Except Fault Request) (s : State) : (submitRequest q s).status = s.status := rfl
@[simp] theorem submitRequest_draws (q : Except Fault Request) (s : State) : (submitRequest q s).draws = s.draws := rfl

@[simp] theorem acceptRegion_enc (r : Region) (s : State) : (acceptRegion r s).enc = s.enc := rfl
@[simp] theorem acceptRegion_streamCapacity (r : Region) (s : State) : (acceptRegion r s).streamCapacity = s.streamCapacity := rfl
@[simp] theorem acceptRegion_response (r : Region) (s : State) : (acceptRegion r s).response = s.response := rfl
@[simp] theorem acceptRegion_returned (r : Region) (s : State) : (acceptRegion r s).returned = s.returned := rfl
@[simp] theorem acceptRegion_hostQueue (r : Region) (s : State) : (acceptRegion r s).hostQueue = s.hostQueue := rfl
@[simp] theorem acceptRegion_phase (r : Region) (s : State) : (acceptRegion r s).phase = .acquired := rfl
@[simp] theorem acceptRegion_region (r : Region) (s : State) : (acceptRegion r s).region = some r := rfl
@[simp] theorem acceptRegion_mem (r : Region) (s : State) : (acceptRegion r s).mem = s.mem := rfl
@[simp] theorem acceptRegion_regs (r : Region) (s : State) : (acceptRegion r s).regs = s.regs := rfl
@[simp] theorem acceptRegion_pc (r : Region) (s : State) : (acceptRegion r s).pc = s.pc := rfl
@[simp] theorem acceptRegion_status (r : Region) (s : State) : (acceptRegion r s).status = s.status := rfl
@[simp] theorem acceptRegion_draws (r : Region) (s : State) : (acceptRegion r s).draws = s.draws := rfl

@[simp] theorem failAllocation_enc (d : Diagnostic) (s : State) : (failAllocation d s).enc = s.enc := rfl
@[simp] theorem failAllocation_streamCapacity (d : Diagnostic) (s : State) : (failAllocation d s).streamCapacity = s.streamCapacity := rfl
@[simp] theorem failAllocation_response (d : Diagnostic) (s : State) : (failAllocation d s).response = s.response := rfl
@[simp] theorem failAllocation_returned (d : Diagnostic) (s : State) : (failAllocation d s).returned = s.returned := rfl
@[simp] theorem failAllocation_hostQueue (d : Diagnostic) (s : State) : (failAllocation d s).hostQueue = s.hostQueue := rfl
@[simp] theorem failAllocation_phase (d : Diagnostic) (s : State) : (failAllocation d s).phase = .allocationFailed d := rfl
@[simp] theorem failAllocation_region (d : Diagnostic) (s : State) : (failAllocation d s).region = s.region := rfl
@[simp] theorem failAllocation_mem (d : Diagnostic) (s : State) : (failAllocation d s).mem = s.mem := rfl
@[simp] theorem failAllocation_regs (d : Diagnostic) (s : State) : (failAllocation d s).regs = s.regs := rfl
@[simp] theorem failAllocation_pc (d : Diagnostic) (s : State) : (failAllocation d s).pc = s.pc := rfl
@[simp] theorem failAllocation_status (d : Diagnostic) (s : State) : (failAllocation d s).status = s.status := rfl
@[simp] theorem failAllocation_draws (d : Diagnostic) (s : State) : (failAllocation d s).draws = s.draws := rfl

@[simp] theorem invoke_enc (r : Region) (s : State) : (invoke r s).enc = s.enc := rfl
@[simp] theorem invoke_streamCapacity (r : Region) (s : State) : (invoke r s).streamCapacity = s.streamCapacity := rfl
@[simp] theorem invoke_response (r : Region) (s : State) : (invoke r s).response = s.response := rfl
@[simp] theorem invoke_returned (r : Region) (s : State) : (invoke r s).returned = s.returned := rfl
@[simp] theorem invoke_hostQueue (r : Region) (s : State) : (invoke r s).hostQueue = s.hostQueue := rfl
@[simp] theorem invoke_phase (r : Region) (s : State) : (invoke r s).phase = .invoked := rfl
@[simp] theorem invoke_region (r : Region) (s : State) : (invoke r s).region = s.region := rfl
@[simp] theorem invoke_mem (r : Region) (s : State) : (invoke r s).mem = s.mem := rfl
@[simp] theorem invoke_regs (r : Region) (s : State) : (invoke r s).regs = RegFile.unwritten := rfl
@[simp] theorem invoke_pc (r : Region) (s : State) : (invoke r s).pc = r.base := rfl
@[simp] theorem invoke_status (r : Region) (s : State) : (invoke r s).status = .running := rfl
@[simp] theorem invoke_draws (r : Region) (s : State) : (invoke r s).draws = s.draws := rfl

@[simp] theorem placeInstr_enc (bs : List Byte) (s : State) : (placeInstr bs s).enc = s.enc := rfl
@[simp] theorem placeInstr_streamCapacity (bs : List Byte) (s : State) : (placeInstr bs s).streamCapacity = s.streamCapacity := rfl
@[simp] theorem placeInstr_response (bs : List Byte) (s : State) : (placeInstr bs s).response = s.response := rfl
@[simp] theorem placeInstr_returned (bs : List Byte) (s : State) : (placeInstr bs s).returned = s.returned := rfl
@[simp] theorem placeInstr_hostQueue (bs : List Byte) (s : State) : (placeInstr bs s).hostQueue = s.hostQueue := rfl
@[simp] theorem placeInstr_phase (bs : List Byte) (s : State) : (placeInstr bs s).phase = .invoked := rfl
@[simp] theorem placeInstr_region (bs : List Byte) (s : State) : (placeInstr bs s).region = s.region := rfl
@[simp] theorem placeInstr_mem (bs : List Byte) (s : State) : (placeInstr bs s).mem = Memory.writeBytes s.mem s.pc bs := rfl
@[simp] theorem placeInstr_regs (bs : List Byte) (s : State) : (placeInstr bs s).regs = s.regs := rfl
@[simp] theorem placeInstr_pc (bs : List Byte) (s : State) : (placeInstr bs s).pc = s.pc := rfl
@[simp] theorem placeInstr_status (bs : List Byte) (s : State) : (placeInstr bs s).status = .running := rfl
@[simp] theorem placeInstr_draws (bs : List Byte) (s : State) : (placeInstr bs s).draws = s.draws := rfl

@[simp] theorem RegFile.get_set_same (x : RegFile) (r : Register) (v : Word32) : (x.set r v).get r = some v := by
  cases r <;> rfl

theorem RegFile.get_set_other (x : RegFile) {r q : Register} (v : Word32) (h : q ≠ r) : (x.set r v).get q = x.get q := by
  cases r <;> cases q <;> first | rfl | exact absurd rfl h

@[simp] theorem RegFile.get_unwritten (r : Register) : RegFile.unwritten.get r = none := by
  cases r <;> rfl

end Sys2Proof.Machine
end

