-- ==== Sys2Proof/Laws/Fetch.lean ====
section
/-! SUPPORT. What the fetch window holds, and one lemma for each fetch that finds no instruction. -/

namespace Sys2Proof.Machine

theorem offset_succ (a : Word32) (k : Nat) : a + 1 + BitVec.ofNat 32 k = a + BitVec.ofNat 32 (k + 1) := by
  rw [BitVec.add_assoc, show (1 : Word32) = BitVec.ofNat 32 1 from rfl, ← BitVec.ofNat_add, Nat.add_comm 1 k]

theorem Memory.holds_cons {m : Memory} {a : Word32} {b : Byte} {bs : List Byte} :
    m.Holds a (b :: bs) ↔ Memory.read m a = some b ∧ m.Holds (a + 1) bs := by
  constructor
  · intro h
    refine ⟨by simpa using h 0 (by simp), fun k hk => ?_⟩
    rw [offset_succ]
    simpa using h (k + 1) (by simpa using hk)
  · rintro ⟨h0, h⟩ k hk
    cases k with
    | zero => simpa using h0
    | succ k =>
      rw [← offset_succ]
      simpa using h k (by simpa using hk)

@[simp] theorem Memory.holds_nil (m : Memory) (a : Word32) : m.Holds a [] := fun _ h => absurd h (by simp)

theorem Memory.holds_append {m : Memory} {a : Word32} {bs cs : List Byte} :
    m.Holds a (bs ++ cs) ↔ m.Holds a bs ∧ m.Holds (a + BitVec.ofNat 32 bs.length) cs := by
  induction bs generalizing a with
  | nil => simp
  | cons b bs ih =>
    rw [List.cons_append, Memory.holds_cons, Memory.holds_cons, ih, offset_succ, and_assoc, List.length_cons]

/-- A window over bytes that memory holds begins with them. -/
theorem fetchWindow_of_holds {m : Memory} {a : Word32} {bs : List Byte} {n : Nat} (h : m.Holds a bs)
    (hn : bs.length ≤ n) : ∃ rest, fetchWindow m a n = bs ++ rest := by
  induction bs generalizing a n with
  | nil => exact ⟨_, rfl⟩
  | cons b bs ih =>
    obtain ⟨h0, h1⟩ := Memory.holds_cons.mp h
    cases n with
    | zero => simp at hn
    | succ n =>
      obtain ⟨rest, hr⟩ := ih h1 (by simpa using hn)
      exact ⟨rest, by simp only [fetchWindow, h0, hr, List.cons_append]⟩

/-- An absent byte ends the window at or before it. -/
theorem fetchWindow_length_le {m : Memory} {a : Word32} {n k : Nat}
    (h : Memory.read m (a + BitVec.ofNat 32 k) = none) : (fetchWindow m a n).length ≤ k := by
  induction n generalizing a k with
  | zero => simp [fetchWindow]
  | succ n ih =>
    cases hr : Memory.read m a with
    | none => simp [fetchWindow, hr]
    | some b =>
      cases k with
      | zero => simp [hr] at h
      | succ k =>
        rw [← offset_succ] at h
        simp only [fetchWindow, hr, List.length_cons]
        exact Nat.succ_le_succ (ih h)

theorem fetchWindow_absent {m : Memory} {a : Word32} (h : Memory.read m a = none) (n : Nat) :
    fetchWindow m a n = [] := by
  cases n <;> simp [fetchWindow, h]

/-- A fetch without an instruction sets `status` and nothing else, and never leaves the XR running or terminated. -/
theorem takeFetchError_cases (e : DecodeError) (s : State) :
    (takeFetchError e s = { s with status := .faulted (.execPastEnd s.pc) } ∧ e = .truncated) ∨
    takeFetchError e s = { s with status := .refused (.unmodelledInstruction s.pc e.bytes) } := by
  cases e
  · exact .inl ⟨rfl, rfl⟩
  all_goals exact .inr rfl

end Sys2Proof.Machine
end

