-- ==== Sys2Proof/Laws/PerInstr.lean ====
section
/-! SUPPORT. Families of statements over all instructions, one lemma per constructor. -/

namespace Sys2Proof.Laws.EncodedLength

/-- An instruction's encoding has the length its format gives (30_encoding.md R51) and is well-formed. -/
def Statement (i : Instr) : Prop := i.wf = true ∧ (encode i).length = i.size ∧ i.size ≤ maxInstrBytes

theorem mov (dest : Register) (imm : Word32) : Statement (.mov dest imm) := ⟨rfl, rfl, Nat.le_refl 6⟩

theorem int (vector : Byte) : Statement (.int vector) := ⟨rfl, rfl, by simp only [Instr.size, maxInstrBytes]; omega⟩

end Sys2Proof.Laws.EncodedLength
end

