-- ==== Sys2Proof/Laws/Step.lean ====
section
/-! SUPPORT. What a step can do, once: the encoder's requests, the harness's operations, the two meanings, the XR's
step and the whole step. -/

namespace Sys2Proof.Machine

/-! ## The encoder -/

/-- An append adds the bytes, or records one fault. -/
theorem EncState.append_cases (cap : Option Nat) (req : Request) (bs : List Byte) (e : EncState) :
    (e.frozen = false ∧ e.append cap req bs = ({ e with stream := e.stream ++ bs }, .ok)) ∨
    ∃ f, e.append cap req bs = e.raise f := by
  unfold EncState.append
  split
  · exact .inr ⟨_, rfl⟩
  · rename_i h
    have h : e.frozen = false := by simpa using h
    split
    · exact .inl ⟨h, rfl⟩
    · split
      · exact .inr ⟨_, rfl⟩
      · exact .inl ⟨h, rfl⟩

/-- A submitted request is an encode request and appends its instruction, or freezes, or records one fault. -/
theorem EncState.submit_cases (cap : Option Nat) (conv : Except Fault Request) (e : EncState) :
    (∃ i, conv = .ok (encodeRequest i) ∧ e.frozen = false ∧
      e.submit cap conv = ({ e with stream := e.stream ++ encode i }, .ok)) ∨
    e.submit cap conv = ({ e with frozen := true }, .ok) ∨
    ∃ f, e.submit cap conv = e.raise f := by
  rcases conv with f | req
  · exact .inr (.inr ⟨f, rfl⟩)
  · cases req with
    | loadImm v dest =>
      rcases EncState.append_cases cap (.loadImm v dest) (encode (.mov dest v)) e with h | h
      · exact .inl ⟨.mov dest v, rfl, h⟩
      · exact .inr (.inr h)
    | softInt n =>
      rcases EncState.append_cases cap (.softInt n) (encode (.int n)) e with h | h
      · exact .inl ⟨.int n, rfl, h⟩
      · exact .inr (.inr h)
    | freeze => exact .inr (.inl rfl)

/-! ## The harness -/

/-- Acquire gives a region that fits the request and the address space, or fails. -/
theorem acquire_cases (n : Nat) (s : State) :
    (∃ r : Region, n ≤ r.size ∧ (n = 0 → r.size = 0) ∧ r.base.toNat + r.size ≤ 2 ^ 32 ∧
      acquire n s = acceptRegion r (countDraw s)) ∨
    ∃ d, acquire n s = failAllocation d (countDraw s) := by
  unfold acquire
  split
  · subst n
    cases Config.zeroSizeAcquire with
    | fail => exact .inr ⟨_, rfl⟩
    | emptyRegion =>
      refine .inl ⟨⟨Config.emptyRegionBase s.draws, 0⟩, le_refl _, fun _ => rfl, ?_, rfl⟩
      have := (Config.emptyRegionBase s.draws).isLt
      show (Config.emptyRegionBase s.draws).toNat + 0 ≤ 2 ^ 32
      omega
  · rename_i hn
    cases Config.platformMap s.draws n with
    | fail d => exact .inr ⟨d, rfl⟩
    | ok base size large inside => exact .inl ⟨⟨base, size⟩, large, fun h => absurd h hn, inside, rfl⟩

/-- A harness operation that goes on is Acquire, Populate or Invoke at its place in R110's order. -/
theorem harnessOp_cases {op : HostOp} {s t : State} (h : harnessOp op s = .next t) :
    (∃ n, op = .acquire n ∧ s.phase = .encoding ∧ s.enc.frozen = true ∧ t = acquire n s) ∨
    (∃ r, op = .populate ∧ s.phase = .acquired ∧ s.region = some r ∧ s.enc.stream.length ≤ r.size ∧
      t = { s with mem := Memory.writeBytes s.mem r.base s.enc.stream, phase := .populated }) ∨
    (∃ r, op = .invoke ∧ s.phase = .populated ∧ s.region = some r ∧ t = invoke r s) := by
  unfold harnessOp at h
  split at h
  · rename_i n hp
    split at h
    · rename_i hf
      cases h
      exact .inl ⟨n, rfl, hp, hf, rfl⟩
    · cases h
  · rename_i r hp hr
    unfold populate at h
    split at h
    · cases h
    · cases h
      exact .inr (.inl ⟨r, rfl, hp, hr, by omega, rfl⟩)
  · rename_i r hp hr
    cases h
    exact .inr (.inr ⟨r, rfl, hp, hr, rfl⟩)
  · cases h

/-- A Host step that goes on submits its oldest request or performs its oldest harness operation. -/
theorem hostStep_cases {s t : State} (h : hostStep s = .next t) :
    ∃ op q, s.hostQueue = op :: q ∧
      ((∃ conv, portRequest op = some conv ∧
          t = submitRequest conv { s with hostQueue := q }) ∨
        harnessOp op { s with hostQueue := q } = .next t) := by
  unfold hostStep at h
  split at h
  · cases h
  · rename_i op q hq
    refine ⟨op, q, hq, ?_⟩
    unfold hostOp at h
    split at h
    · rename_i conv hc
      cases h
      exact .inl ⟨conv, hc, rfl⟩
    · exact .inr h

/-! ## The XR -/

theorem exec_mov (r : Register) (v : Word32) (s : State) :
    exec (.mov r v) s = .next (advancePc 6 (writeReg r v s)) := rfl

theorem exec_int (n : Byte) (s : State) :
    exec (.int n) s = .next (takeKernelOutcome n (Config.kernelService s.draws n s.regs s.mem) (countDraw s)) := rfl

/-- No program that the machine's Kernel runs ends with the sentinel (D21). -/
theorem kernelService_sentinelDistinct : SentinelDistinct Config.kernelService Config.allocFailStatus := by
  intro draw n x m code h
  unfold Config.kernelService at h
  cases hk : Config.kernelAnswer draw n x m with
  | fault info => rw [hk] at h; cases h
  | terminate c distinct => rw [hk] at h; cases h; exact distinct
  | ret regs cells => rw [hk] at h; cases h

/-- A Kernel outcome returns, terminates or faults. -/
theorem takeKernelOutcome_cases (n : Byte) (o : KernelOutcome) (s : State) :
    (∃ x cells, o = .ret x cells ∧ takeKernelOutcome n o s = returnFromKernel x (Memory.ofCells cells) s) ∨
    (∃ c, o = .terminate c ∧ takeKernelOutcome n o s = terminateXr c s) ∨
    (∃ info, o = .fault info ∧ takeKernelOutcome n o s = raiseXr (.kernelFault n info) s) := by
  cases o with
  | ret x cells => exact .inl ⟨x, cells, rfl, rfl⟩
  | terminate c => exact .inr (.inl ⟨c, rfl, rfl⟩)
  | fault info => exact .inr (.inr ⟨info, rfl, rfl⟩)

/-- An XR step that goes on runs the instruction at the pc, or records why there is none. -/
theorem xrStep_cases {s t : State} (h : xrStep s = .next t) :
    s.status = .running ∧
      ((∃ r v rest, fetchDecode s = .ok (.mov r v, rest) ∧ t = advancePc 6 (writeReg r v s)) ∨
        (∃ n rest, fetchDecode s = .ok (.int n, rest) ∧
          t = takeKernelOutcome n (Config.kernelService s.draws n s.regs s.mem) (countDraw s)) ∨
        ∃ e, fetchDecode s = .error e ∧ t = takeFetchError e s) := by
  unfold xrStep at h
  split at h
  · rename_i hs
    refine ⟨hs, ?_⟩
    split at h
    · rename_i i rest hd
      cases i with
      | mov r v => cases h; exact .inl ⟨r, v, rest, hd, rfl⟩
      | int n => cases h; exact .inr (.inl ⟨n, rest, hd, rfl⟩)
    · rename_i e hd
      cases h
      exact .inr (.inr ⟨e, hd, rfl⟩)
  all_goals cases h

/-! ## The whole step -/

theorem step_of_hostTurn {s : State} (h : s.hostTurn) : step s = hostStep s := by
  rcases h with h | h | h <;> simp [step, h]

theorem step_of_invoked {s : State} (h : s.phase = .invoked) : step s = xrStep s := by
  simp [step, h]

/-- A step that goes on is the Host's, in its turn, or the XR's, once invoked. -/
theorem step_cases {s t : State} (h : step s = .next t) :
    (s.hostTurn ∧ hostStep s = .next t) ∨ (s.phase = .invoked ∧ xrStep s = .next t) := by
  cases hp : s.phase with
  | encoding => exact .inl ⟨.inl hp, by simpa [step, hp] using h⟩
  | acquired => exact .inl ⟨.inr (.inl hp), by simpa [step, hp] using h⟩
  | populated => exact .inl ⟨.inr (.inr hp), by simpa [step, hp] using h⟩
  | invoked => exact .inr ⟨rfl, by simpa [step, hp] using h⟩
  | allocationFailed d => simp [step, hp] at h

/-- A step of an executing XR with an instruction at the pc. -/
theorem step_of_decode {s : State} {i : Instr} {rest : List Byte} (hp : s.phase = .invoked)
    (hs : s.status = .running) (h : fetchDecode s = .ok (i, rest)) : step s = exec i s := by
  simp [step_of_invoked hp, xrStep, hs, h]

/-- A step of an executing XR without one. -/
theorem step_of_decode_error {s : State} {e : DecodeError} (hp : s.phase = .invoked) (hs : s.status = .running)
    (h : fetchDecode s = .error e) : step s = .next (takeFetchError e s) := by
  simp [step_of_invoked hp, xrStep, hs, h]

/-- A run whose first step goes on is the rest of the run from there. -/
theorem run_succ_of_next (M : Host.Core) (n : Nat) (s t : M.State) (h : M.step s = .next t) :
    M.run (n + 1) s = M.run n t := by
  simp only [Host.Core.run, h]

theorem core_run_succ {s t : State} (n : Nat) (h : step s = .next t) :
    Host.Core.run core (n + 1) s = Host.Core.run core n t :=
  run_succ_of_next core n s t h

/-- An invariant that every step keeps holds of every state reached. -/
theorem reaches_induct {P : State → Prop} (hstep : ∀ s t, P s → step s = .next t → P t) {s t : State}
    (h : Reaches s t) (hs : P s) : P t := by
  induction h with
  | refl => exact hs
  | tail _ hu ih => exact hstep _ _ ih hu

end Sys2Proof.Machine
end

