-- ==== Sys2Proof/Machine/Flags.lean ====
section
/-! DEFINITION. Flags: there are none. "The encoder has no flags. The XR models no flags register." (10_state.md R29) -/

namespace Sys2Proof.Machine

/-- The flags of this hardware: none (R29). -/
inductive Flag
deriving DecidableEq, Repr

/-- The flags an instruction writes: "Flags written: none" (41_mov_imm32.md R73, 42_int_n.md R79). -/
def flagsWritten : Instr → List Flag
  | .mov _ _ => []
  | .int _ => []

end Sys2Proof.Machine
end

