-- ==== Sys2Proof/Tests/Slice0.lean ====
section
/-! SUPPORT. Tests from the spec's own vectors (95_test_vectors.md, each test names its row), the smoke test of
WellFormed, and for each statement with hypotheses a witness that meets them together. -/

namespace Sys2Proof.Tests

open Sys2Proof Sys2Proof.Machine

/-- Whether a step answers a next state with a property. -/
def after (o : Host.Outcome State Fault Refusal) (p : State → Bool) : Bool :=
  match o with
  | .next t => p t
  | .fault _ => false
  | .refused _ => false

/-- Whether a step answers a fault. -/
def faults (o : Host.Outcome State Fault Refusal) (f : Fault) : Bool :=
  match o with
  | .fault g => decide (g = f)
  | .next _ => false
  | .refused _ => false

/-- Whether a step answers a refusal. -/
def refuses (o : Host.Outcome State Fault Refusal) (r : Refusal) : Bool :=
  match o with
  | .refused q => decide (q = r)
  | .next _ => false
  | .fault _ => false

/-- The XR executing over populated bytes at base 0x1000, at an offset, with given registers. -/
def xr (bs : List Byte) (offset : Nat) (x : RegFile) : State :=
  { State.reset with
    enc := { stream := bs, frozen := true, faults := [] }
    phase := .invoked
    region := some ⟨0x1000, bs.length⟩
    mem := Memory.writeBytes [] 0x1000 bs
    regs := x
    pc := 0x1000 + BitVec.ofNat 32 offset }

/-- The Host's turn with a stream, a frozen bit, a capacity and one pending operation. -/
def host (bs : List Byte) (frozen : Bool) (cap : Option Nat) (op : HostOp) : State :=
  { State.reset with
    enc := { stream := bs, frozen := frozen, faults := [] }
    streamCapacity := cap
    hostQueue := [op] }

/-- A region of a size at base 0x1000, acquired, with a frozen stream and pending operations. -/
def acquired (bs : List Byte) (size : Nat) (ops : List HostOp) : State :=
  { State.reset with
    enc := { stream := bs, frozen := true, faults := [] }
    phase := .acquired
    region := some ⟨0x1000, size⟩
    hostQueue := ops }

/-- `mov a, 1`. -/
def movA1 : List Byte := [0xC7, 0xC0, 0x01, 0x00, 0x00, 0x00]

/-! ## WellFormed: an ill-formed term for each check -/

theorem test_wf_immediate : immediateInRange (2 ^ 31) = false ∧ immediateInRange (-(2 ^ 31) - 1) = false := by decide
theorem test_wf_address : addressInRange (2 ^ 32) = false ∧ addressInRange (-1) = false := by decide
theorem test_wf_vector : vectorInRange 256 = false ∧ vectorInRange (-1) = false := by decide
theorem test_wf_byte_index : byteIndexInRange 4 = false := by decide
theorem test_wf_disp8 : disp8InRange 128 = false ∧ disp8InRange (-129) = false := by decide
/-- R60: `rm` 0b100, `reg` 0b001 and the memory modes. -/
theorem test_wf_addressing : formatMAddressing 0xC4 = false ∧ formatMAddressing 0xC8 = false ∧
    formatMAddressing 0x00 = false ∧ formatMAddressing 0xC3 = true := by decide

/-! ## Decoding and encoding: words written out from 30_encoding.md R52 and R54 (V4, V5) -/

/-- R52: 11000111 11000rrr, the immediate little-endian. -/
theorem test_decode_mov :
    decode [0b11000111, 0b11000000, 0b00000100, 0, 0, 0] = .ok (.mov .a 4, []) ∧
    decode [0b11000111, 0b11000011, 0x78, 0x56, 0x34, 0x12] = .ok (.mov .b 0x12345678, []) ∧
    decode [0b11000111, 0b11000001, 0xCD, 0x80, 0, 0] = .ok (.mov .c 0x80CD, []) ∧
    decode [0b11000111, 0b11000010, 0xFE, 0xFF, 0xFF, 0xFF] = .ok (.mov .d 0xFFFFFFFE, []) := by decide

/-- R54: 11001101 nnnnnnnn; the bytes after it are left. -/
theorem test_decode_int : decode [0b11001101, 0b10000000, 0x90] = .ok (.int 0x80, [0x90]) := by decide

/-- V7, R61, R63: the encodings the XR refuses, each by name, and the short ones. -/
theorem test_decode_rejects :
    decode [0x90] = .error (.unknownOpcode 0x90) ∧ decode [0xCC] = .error (.unknownOpcode 0xCC) ∧
    decode [0xC7, 0xC4, 1, 0, 0, 0] = .error (.registerCode [0xC7, 0xC4, 1, 0, 0, 0]) ∧
    decode [0xC7, 0xC8, 1, 0, 0, 0] = .error (.opcodeExtension [0xC7, 0xC8, 1, 0, 0, 0]) ∧
    decode [0xC7, 0x00, 1, 0, 0, 0] = .error (.memoryOperand [0xC7, 0x00, 1, 0, 0, 0]) ∧
    decode [0xC7, 0xC4] = .error .truncated ∧ decode [0xCD] = .error .truncated := by decide

/-- V4, V5. -/
theorem test_encode :
    encode (.mov .c 0xFFFFFFFF) = [0xC7, 0xC1, 0xFF, 0xFF, 0xFF, 0xFF] ∧
    encode (.mov .a 0x80000000) = [0xC7, 0xC0, 0x00, 0x00, 0x00, 0x80] ∧ encode (.int 3) = [0xCD, 0x03] := by decide

/-- W6 with C1: the scenario is 40 bytes, for every address and length. -/
theorem test_scenario_length :
    (encodeAll [.mov .a 4, .mov .b 1, .mov .c Config.msgAddr, .mov .d Config.msgLen, .int 0x80, .mov .a 1, .mov .b 0,
      .int 0x80]).length = 40 := rfl

/-- P1b: an immediate that holds `CD 80` is stepped over (R58). -/
theorem test_decode_stream :
    decodeStream 2 [0xC7, 0xC1, 0x00, 0xCD, 0x80, 0x08, 0xCD, 0x80] = some [.mov .c 0x0880CD00, .int 0x80] := by decide

/-- The opcode table's numbering, first byte leftmost. -/
theorem test_table_word :
    decodeTableWord 48 0xC7C301000000 = some (.mov .b 1) ∧ decodeTableWord 16 0xCD80 = some (.int 0x80) ∧
    decodeTableWord 16 0x9090 = none := by decide

/-- The other reading of the numbering, first byte in bits 7..0 (log entry 16). -/
theorem test_table_word_low :
    decodeTableWord 48 0x00000001C3C7 = some (.mov .b 1) ∧ decodeTableWord 16 0x80CD = some (.int 0x80) := by decide

/-! ## Primitives (V1 to V3) -/

/-- V1. -/
theorem test_compose :
    composeAddressingByte .registerDirect 8 0 = 0xC0 ∧ composeAddressingByte .registerDirect 9 0 = 0xC8 ∧
    composeAddressingByte .registerDirect 0 15 = 0xC7 ∧ composeAddressingByte .directRegister 0 0 = 0x00 ∧
    composeAddressingByte .registerDisp8 2 5 = 0x55 ∧ composeAddressingByte .registerDisp32 5 4 = 0xAC ∧
    composeAddressingByte .registerDirect (-1) (-1) = 0xFF := by decide

/-- V2. -/
theorem test_extract :
    extractLittleEndianByte 0x12345678 0 = .ok 0x78 ∧ extractLittleEndianByte 0x12345678 3 = .ok 0x12 ∧
    extractLittleEndianByte 0x80000000 3 = .ok 0x80 ∧
    extractLittleEndianByte 0x12345678 4 = .error (.unsupportedOperand 4) := ⟨rfl, rfl, rfl, rfl⟩

/-- V3, at the edges of each range. -/
theorem test_port_conversions :
    toWord32 (-1) = .ok 0xFFFFFFFF ∧ toWord32 (-(2 ^ 31)) = .ok 0x80000000 ∧
    toWord32 (2 ^ 31) = .error (.unsupportedOperand (2 ^ 31)) ∧ toWord32Addr (2 ^ 32 - 1) = .ok 0xFFFFFFFF ∧
    toWord32Addr (2 ^ 32) = .error (.unsupportedOperand (2 ^ 32)) ∧ toByte 255 = .ok 0xFF ∧
    toByte 256 = .error (.unsupportedOperand 256) ∧ toByte (-1) = .error (.unsupportedOperand (-1)) :=
  ⟨rfl, rfl, rfl, rfl, rfl, rfl, rfl, rfl⟩

/-! ## The encoder (V6), through the machine's step -/

/-- V6: capacity 7 takes 6 bytes and not 8. The first step is a witness of StreamOnlyGrowsByEncodeRequests: the stream
changes. -/
theorem test_capacity :
    after (step (host [] false (some 7) (.request (.loadImm 1 .a))))
      (fun t => decide (t.enc = ⟨movA1, false, []⟩) && decide (t.response = some .ok)) = true ∧
    after (step (host movA1 false (some 7) (.request (.softInt 0x80))))
      (fun t => decide (t.enc = ⟨movA1, false, [.streamOverflow 6 2]⟩)) = true := by decide

/-- V6: exactly full, and `StreamFrozen` before `StreamOverflow`. -/
theorem test_full_and_priority :
    after (step (host movA1 false (some 8) (.request (.softInt 0x80))))
      (fun t => decide (t.enc.stream = movA1 ++ [0xCD, 0x80])) = true ∧
    after (step (host [] true (some 0) (.request (.softInt 0))))
      (fun t => decide (t.response = some (.fault (.streamFrozen (.softInt 0))))) = true := by decide

/-- V6: Freeze, and a conversion fault that is recorded whatever the state. -/
theorem test_freeze_and_conversion :
    after (step (host movA1 false none (.request .freeze)))
      (fun t => decide (t.enc = ⟨movA1, true, []⟩) && decide (t.response = some .ok) &&
        decide (t.returned = some movA1)) = true ∧
    after (step (host movA1 true none (.softIntInt 256)))
      (fun t => decide (t.enc = ⟨movA1, true, [.unsupportedOperand 256]⟩) && decide (t.returned = none)) = true := by
  decide

/-- V3, V6: the caller's integer -1 is loaded as FF FF FF FF, and 2^32 is `UnsupportedOperand` with nothing emitted. -/
theorem test_integer_load :
    after (step (host [] false none (.loadInt (-1) .a)))
      (fun t => decide (t.enc = ⟨[0xC7, 0xC0, 0xFF, 0xFF, 0xFF, 0xFF], false, []⟩)) = true ∧
    after (step (host movA1 false none (.loadInt (2 ^ 32) .a)))
      (fun t => decide (t.enc = ⟨movA1, false, [.unsupportedOperand (2 ^ 32)]⟩)) = true := by decide

/-! ## The harness (V8) -/

theorem test_populate :
    after (step (acquired movA1 4096 [.populate]))
      (fun t => decide (Memory.read t.mem 0x1001 = some 0xC0) && decide (Memory.read t.mem 0x1006 = none)) = true ∧
    refuses (step (acquired movA1 5 [.populate])) (.regionUndersized 5 6) = true := by decide

/-- V8, P5: an empty region is populated and invoked, and the first fetch faults. -/
theorem test_empty_program :
    after (Host.Core.run core 3 (acquired [] 0 [.populate, .invoke]))
      (fun t => decide (t.status = .faulted (.execPastEnd 0x1000)) && decide (t.regs = RegFile.unwritten)) = true := by
  decide

/-- P6, R89: a failed allocation ends the process; the region is never touched. -/
theorem test_allocation_failure :
    faults (step (takeMapAnswer (size := 14) (.fail ⟨12, "no memory"⟩) (acquired movA1 0 [])))
      (.allocationError ⟨12, "no memory"⟩) = true := by decide

/-- R83, R110: out of order there is no move, and with nothing sent there is none. -/
theorem test_no_move :
    refuses (step (host movA1 false none (.acquire 6))) (.outOfOrder (.acquire 6)) = true ∧
    refuses (step State.reset) .noHostRequest = true := by decide

/-! ## The XR (V7) -/

theorem test_mov_overwrites :
    after (step (xr [0xC7, 0xC0, 0xFF, 0xFF, 0xFF, 0xFF] 0 ⟨some 5, none, none, none⟩))
      (fun t => decide (t.regs = ⟨some 0xFFFFFFFF, none, none, none⟩) && decide (t.pc = 0x1006)) = true := by decide

theorem test_mov_other_register :
    after (step (xr [0xC7, 0xC2, 0xFF, 0xFF, 0xFF, 0x7F] 0 RegFile.unwritten))
      (fun t => decide (t.regs = ⟨none, none, none, some 0x7FFFFFFF⟩) && decide (t.status = .running)) = true := by
  decide

theorem test_xr_refuses :
    after (step (xr [0xC7, 0xC4, 1, 0, 0, 0] 0 RegFile.unwritten)) (fun t =>
      decide (t.status = .refused (.unmodelledInstruction 0x1000 [0xC7, 0xC4, 1, 0, 0, 0]))) = true ∧
    after (step (xr [0xCC] 0 RegFile.unwritten)) (fun t =>
      decide (t.status = .refused (.unmodelledInstruction 0x1000 [0xCC])) && decide (t.pc = 0x1000)) = true := by decide

/-- V7: the remaining bytes are checked before the addressing byte; and the end of the populated bytes. -/
theorem test_xr_past_end :
    after (step (xr [0xC7, 0xC4] 0 RegFile.unwritten)) (fun t =>
      decide (t.status = .faulted (.execPastEnd 0x1000))) = true ∧
    after (step (xr movA1 6 RegFile.unwritten)) (fun t =>
      decide (t.status = .faulted (.execPastEnd 0x1006))) = true := by decide

/-- V7: the three outcomes of the Kernel at `int 0x80`. -/
theorem test_int_return :
    (takeKernelOutcome 0x80 (.ret ⟨some 13, none, none, none⟩ [(0x1002, 0xCD), (0x1001, 0x90), (0x1002, 0xC7)])
      (xr [0xCD, 0x80] 0 RegFile.unwritten)).mem = [(0x1001, 0x90), (0x1002, 0xC7)] ∧
    (takeKernelOutcome 0x80 (.ret RegFile.unwritten []) (xr [0xCD, 0x80] 0 RegFile.unwritten)).pc = 0x1002 := by decide

theorem test_int_stops :
    (takeKernelOutcome 0x80 (.terminate 42) (xr [0xCD, 0x80] 0 RegFile.unwritten)).exitStatus = some 42 ∧
    (takeKernelOutcome 3 (.fault 7) (xr [0xCD, 3] 0 RegFile.unwritten)).status = .faulted (.kernelFault 3 7) := by decide

/-- R98: no step after the end; the step answers what the run ended with. -/
theorem test_no_step_after_end :
    faults (step { xr movA1 6 RegFile.unwritten with status := .faulted (.execPastEnd 0x1006) }) (.execPastEnd 0x1006)
      = true ∧
    refuses (step { xr movA1 6 RegFile.unwritten with status := .terminated 0 }) (.processEnded 0) = true := by decide

/-- The host's question: a table word runs as the first instruction after reset. -/
theorem test_first_instruction_mov :
    after (step (State.reset.withFetchWord 48 0xC7C301000000)) (fun t =>
      decide (t.regs = ⟨none, some 1, none, none⟩) && decide (t.pc = 6)) = true := by decide

theorem test_first_instruction_int :
    step (State.reset.withFetchWord 16 0xCD80) = exec (.int 0x80) (State.reset.withFetchWord 16 0xCD80) := rfl

/-- A write between two listed addresses keeps the list sorted. -/
theorem test_canonical_write : Memory.write [(4, 1), (9, 2)] 7 3 = [(4, 1), (7, 3), (9, 2)] := by decide

/-- R92: the numeric codes 1 to 8. -/
theorem test_fault_codes :
    [Fault.unsupportedOperand 0, .streamFrozen .freeze, .streamOverflow 0 0, .allocationError ⟨0, ""⟩, .execPastEnd 0,
      .kernelFault 0 0].map Fault.code = [1, 2, 3, 4, 5, 6] ∧
    (Refusal.unmodelledInstruction 0 []).code = some 7 ∧ (Refusal.regionUndersized 0 0).code = some 8 := by decide

/-- R62: a displacement that does not fit its field faults. -/
theorem test_displacement : displacementBytes .registerDisp8 (-1) = .ok [0xFF] ∧
    displacementBytes .registerDisp8 128 = .error (.unsupportedOperand 128) := ⟨rfl, rfl⟩

/-- R85: the region's protection flags. -/
theorem test_protection : State.reset.protection = .noAccess ∧ (acquired [] 0 []).protection = .writeExecute := by decide

/-! ## Witnesses: states and operands that meet each statement's hypotheses -/

theorem reset_inv : State.reset.Inv where
  statusDistinct := fun _ h => by cases h
  memCanonical := rfl
  streamEmitted := ⟨[], rfl⟩
  regionInside := fun _ h => by cases h
  beforeAcquire := fun _ => ⟨rfl, rfl⟩
  afterFailure := fun _ h => by cases h
  afterAcquire := fun h => by cases h
  afterPopulate := fun h => by cases h
  beforeInvoke := fun _ => rfl
  afterInvoke := fun h => by cases h

theorem acquired_inv (ops : List HostOp) : (acquired movA1 6 ops).Inv where
  statusDistinct := fun _ h => by cases h
  memCanonical := rfl
  streamEmitted := ⟨[.mov .a 1], rfl⟩
  regionInside := fun _ h => by cases h; decide
  beforeAcquire := fun h => by cases h
  afterFailure := fun _ h => by cases h
  afterAcquire := fun _ => ⟨rfl, ⟨_, rfl⟩, rfl⟩
  afterPopulate := fun h => by cases h
  beforeInvoke := fun _ => rfl
  afterInvoke := fun h => by cases h

/-- StepKeepsInvariant, StreamOnlyGrowsByEncodeRequests, StepsKeepRecordedFaultsAndCapacity, PhasesFollowHandoffOrder:
a state of the invariant that steps, and changes the phase; OnlyPopulateAndKernelWriteMemory: it changes memory;
RecordedFaultsAreNeverCleared: it is clean afterwards. -/
theorem witness_step : ∃ s t : State, s.Inv ∧ step s = .next t ∧ t.phase = .populated ∧ t.mem ≠ s.mem ∧
    t.clean = true :=
  ⟨acquired movA1 6 [.populate], _, acquired_inv _, rfl, rfl, by decide, rfl⟩

/-- DecodeOfEncodeIsTheInstruction, DecodedBytesAreTheEncoding, EmittedStreamsDecodeUniquely. -/
theorem witness_decode : (Instr.mov .a 1).wf = true ∧ decode (movA1 ++ [0x90]) = .ok (.mov .a 1, [0x90]) ∧
    encodeAll [.mov .a 1] = encodeAll [.mov .a 1] := ⟨rfl, by decide, rfl⟩

/-- DecoderFollowsOpcodeTable: both rows. -/
theorem witness_rows : (∃ row ∈ opcodeTable, row.covers movA1 = true) ∧
    (∃ row ∈ opcodeTable, row.covers [0xCD, 0x80] = true) := by decide

/-- ExtractedByteIsTheWordsByte, WideByteIndexFaults: the edges 3 and 4; PortConversionsKeepOrFault: the edges of each range. -/
theorem witness_ranges : (3 < 4 ∧ 4 ≤ 4) ∧
    (-(2 ^ 31) ≤ (-(2 ^ 31) : Int) ∧ (2 ^ 31 - 1 : Int) ≤ 2 ^ 31 - 1 ∧ (2 ^ 31 - 1 : Int) < 2 ^ 31) ∧
    ((0 : Int) ≤ 2 ^ 32 - 1 ∧ (2 ^ 32 - 1 : Int) < 2 ^ 32) ∧ ((0 : Int) ≤ 255 ∧ (255 : Int) < 256) := by decide

/-- LoadImmRequestAppendsSixBytesOrFaults and SoftIntRequestAppendsTwoBytesOrFaults: each clause, the capacity one byte
short and exactly enough. -/
theorem witness_capacity :
    (⟨[], true, []⟩ : EncState).frozen = true ∧ (⟨[], false, []⟩ : EncState).frozen = false ∧
    5 < (⟨[], false, []⟩ : EncState).stream.length + 6 ∧ 1 < (⟨[], false, []⟩ : EncState).stream.length + 2 ∧
    fits (some 6) ((⟨[], false, []⟩ : EncState).stream.length + 6) ∧
    fits (some 2) ((⟨[], false, []⟩ : EncState).stream.length + 2) := by
  refine ⟨rfl, rfl, by decide, by decide, ?_, ?_⟩
  · intro k h
    cases h
    decide
  · intro k h
    cases h
    decide

/-- OperandsAreAssembledFromBytes: bytes that decode to a load. -/
theorem witness_operands : decode (0xC7 :: 0xC1 :: 0xCD :: 0x80 :: 0 :: 0xFF :: [0x90]) =
    .ok (.mov .c 0xFF0080CD, [0x90]) := by decide

/-- SuccessfulLoadImmAppendsSixBytes, SuccessfulSoftIntAppendsTwoBytes: requests that just fit. -/
theorem witness_successful_request :
    (EncState.handle (some 6) (.loadImm 1 .a) ⟨[], false, []⟩).2 = .ok ∧
    (EncState.handle (some 2) (.softInt 0xFF) ⟨[], false, []⟩).2 = .ok := by decide

/-- FreezeReturnsStreamAndIsIdempotent, FaultedRequestOnlyRecordsItsFault, FaultedRequestEmitsNoByte: a request that
answers a fault. -/
theorem witness_faulted_request : (⟨[], true, []⟩ : EncState).frozen = true ∧
    (EncState.submit none (.ok (.softInt 0)) ⟨[], true, []⟩).2 = .fault (.streamFrozen (.softInt 0)) := by decide

/-- HostIntegerOperationsConvertOrFault, and HostStepSubmitsOneRequest on integer operations: in the Host's turn, each
operation at the edges of its range and one past each. -/
theorem witness_integer_operations :
    (∀ v ∈ [-(2 ^ 31) - 1, -(2 ^ 31), 2 ^ 31 - 1, 2 ^ 31], (host [] false none (.loadInt v .d)).hostTurn ∧
      (host [] false none (.loadInt v .d)).hostQueue = .loadInt v .d :: []) ∧
    (∀ v ∈ [-1, 0, 2 ^ 32 - 1, 2 ^ 32], (host [] false none (.loadAddr v .d)).hostTurn ∧
      (host [] false none (.loadAddr v .d)).hostQueue = .loadAddr v .d :: []) ∧
    (∀ v ∈ [-1, 0, 255, 256], (host [] false none (.softIntInt v)).hostTurn ∧
      (host [] false none (.softIntInt v)).hostQueue = .softIntInt v :: []) ∧
    portRequest (.loadInt (2 ^ 31 - 1) .d) = some (.ok (.loadImm 0x7FFFFFFF .d)) ∧
    portRequest (.loadInt (2 ^ 31) .d) = some (.error (.unsupportedOperand (2 ^ 31))) :=
  ⟨fun _ _ => ⟨.inl rfl, rfl⟩, fun _ _ => ⟨.inl rfl, rfl⟩, fun _ _ => ⟨.inl rfl, rfl⟩, rfl, rfl⟩

/-- HostStepSubmitsOneRequest, EncodeRequestsEmitTheProgram (unfrozen, room for exactly the program). -/
theorem witness_host_turn : ∃ s : State,
    s.hostTurn ∧ s.enc.frozen = false ∧
    fits s.streamCapacity (s.enc.stream.length + (encodeAll [.mov .a 1]).length) ∧
    s.hostQueue = [Instr.mov .a 1].map (fun i => .request (encodeRequest i)) ++ [] ∧
    portRequest (.request (encodeRequest (.mov .a 1))) = some (.ok (.loadImm 1 .a)) := by
  refine ⟨host [] false (some 6) (.request (encodeRequest (.mov .a 1))), .inl rfl, rfl, ?_, rfl, rfl⟩
  intro k h
  cases h
  decide

/-- FrozenStreamStaysAndRejectsEncodes: a frozen stream that steps, in the Host's turn, with an encode request. -/
theorem witness_frozen : (host movA1 true none (.request (encodeRequest (.int 0x80)))).hostTurn ∧
    (host movA1 true none (.request (encodeRequest (.int 0x80)))).enc.frozen = true ∧
    (host movA1 true none (.request (encodeRequest (.int 0x80)))).hostQueue = .request (encodeRequest (.int 0x80)) :: [] ∧
    after (step (host movA1 true none (.request (encodeRequest (.int 0x80))))) (fun _ => true) = true :=
  ⟨.inl rfl, rfl, rfl, by decide⟩

/-- AcquireGivesRegionOrEndsProcess: sizes 0 and 6. -/
theorem witness_acquire : ∀ n ∈ [0, 6], (host movA1 true none (.acquire n)).phase = .encoding ∧
    (host movA1 true none (.acquire n)).enc.frozen = true ∧
    (host movA1 true none (.acquire n)).hostQueue = .acquire n :: [] := by decide

/-- PopulateCopiesStreamOrRefuses: a region one byte too small, and one that just holds the stream. -/
theorem witness_populate : ∀ size ∈ [5, 6], (acquired movA1 size [.populate]).phase = .acquired ∧
    (acquired movA1 size [.populate]).region = some ⟨0x1000, size⟩ ∧
    (acquired movA1 size [.populate]).hostQueue = .populate :: [] ∧ (0x1000#32).toNat + size ≤ 2 ^ 32 ∧
    (size < movA1.length ∨ movA1.length ≤ size) := by decide

/-- InvokeStartsXrAtRegionBase. -/
theorem witness_invoke : ∃ (s : State) (r : Region), s.phase = .populated ∧ s.region = some r ∧
    s.hostQueue = .invoke :: [] :=
  ⟨{ acquired movA1 6 [.invoke] with phase := .populated }, ⟨0x1000, 6⟩, rfl, rfl, rfl⟩

/-- HandoffExecutesFirstInstruction. -/
theorem witness_handoff : ∃ (s : State) (r : Region), s.Inv ∧ s.phase = .acquired ∧ s.region = some r ∧
    s.hostQueue = .populate :: .invoke :: [] ∧ s.enc.stream = encodeAll (.mov .a 1 :: []) ∧
    s.enc.stream.length ≤ r.size :=
  ⟨acquired movA1 6 [.populate, .invoke], ⟨0x1000, 6⟩, acquired_inv _, rfl, rfl, rfl, rfl, by decide⟩

/-- HostHasNoMoveAfterInvoke: a next state, a fault and a refusal after Invoke. -/
theorem witness_invoked :
    after (step (xr movA1 0 RegFile.unwritten)) (fun t => decide (t.phase = .invoked)) = true ∧
    faults (step { xr movA1 0 RegFile.unwritten with status := .faulted (.execPastEnd 0) }) (.execPastEnd 0) = true ∧
    refuses (step { xr movA1 0 RegFile.unwritten with status := .terminated 3 }) (.processEnded 3) = true := by decide

/-- StepRunsDecodedInstruction, PcAdvancesByInstructionLength (running, and stopped), OnlyLoadAndKernelWriteRegisters
(the register changes). -/
theorem witness_executing : (xr movA1 0 RegFile.unwritten).executing ∧
    decode (fetchWindow (xr movA1 0 RegFile.unwritten).mem 0x1000 maxInstrBytes) = .ok (.mov .a 1, []) ∧
    after (step (xr movA1 0 RegFile.unwritten))
      (fun t => decide (t.regs.get .a ≠ none) && decide (t.status = .running)) = true ∧
    after (step (xr movA1 6 RegFile.unwritten)) (fun t => decide (t.status ≠ .running)) = true :=
  ⟨⟨rfl, rfl⟩, by decide, by decide, by decide⟩

/-- XrExecutesStreamInEmissionOrder: memory that holds a program, at its second instruction, and past its last. -/
theorem witness_emission_order :
    (xr [0xCD, 3, 0xCD, 4] 2 RegFile.unwritten).executing ∧
    (xr [0xCD, 3, 0xCD, 4] 2 RegFile.unwritten).mem.Holds 0x1000 (encodeAll ([.int 3] ++ [.int 4])) ∧
    (xr [0xCD, 3, 0xCD, 4] 2 RegFile.unwritten).pc = 0x1000 + BitVec.ofNat 32 (encodeAll [.int 3]).length ∧
    (xr [0xCD, 3] 2 RegFile.unwritten).executing ∧
    (xr [0xCD, 3] 2 RegFile.unwritten).mem.Holds 0x1000 (encodeAll ([.int 3] ++ [])) ∧
    (xr [0xCD, 3] 2 RegFile.unwritten).pc = 0x1000 + BitVec.ofNat 32 (encodeAll [.int 3]).length ∧
    Memory.read (xr [0xCD, 3] 2 RegFile.unwritten).mem (xr [0xCD, 3] 2 RegFile.unwritten).pc = none := by
  unfold Memory.Holds State.executing
  decide

/-- LoadProgramLeavesLastValues: memory that holds two loads into one register. -/
theorem witness_load_program :
    (xr (movA1 ++ movA1) 0 RegFile.unwritten).executing ∧
    (xr (movA1 ++ movA1) 0 RegFile.unwritten).mem.Holds (xr (movA1 ++ movA1) 0 RegFile.unwritten).pc
      (encodeAll ([(Register.a, (1 : Word32)), (Register.a, 1)].map fun l => .mov l.1 l.2)) := by
  unfold Memory.Holds State.executing
  decide

/-- XrStopsOnAbsentOrUnknownOpcode: each clause. -/
theorem witness_unknown_opcode :
    (xr [] 0 RegFile.unwritten).executing ∧ Memory.read (xr [] 0 RegFile.unwritten).mem 0x1000 = none ∧
    (xr [0xCC] 0 RegFile.unwritten).executing ∧
    Memory.read (xr [0xCC] 0 RegFile.unwritten).mem 0x1000 = some 0xCC := by
  unfold State.executing
  decide

/-- XrStepOnLoadOpcode: the last byte absent; a Format M instance; and each kind of other addressing byte. -/
theorem witness_load_opcode :
    (xr [0xC7, 0xC4, 1, 0, 0] 0 RegFile.unwritten).executing ∧
    Memory.read (xr [0xC7, 0xC4, 1, 0, 0] 0 RegFile.unwritten).mem 0x1000 = some 0xC7 ∧
    Memory.read (xr [0xC7, 0xC4, 1, 0, 0] 0 RegFile.unwritten).mem (0x1000 + BitVec.ofNat 32 5) = none ∧
    (∀ b ∈ [0xC3, 0x83, 0xC8, 0xC4], (xr [0xC7, b, 1, 0, 0, 0] 0 RegFile.unwritten).executing ∧
      (xr [0xC7, b, 1, 0, 0, 0] 0 RegFile.unwritten).mem.Holds 0x1000 [0xC7, b, 1, 0, 0, 0]) ∧
    (modField 0xC3 = 0b11 ∧ regField 0xC3 = 0b000 ∧ rmField 0xC3 = regCode .b) ∧
    modField 0x83 ≠ 0b11 ∧ regField 0xC8 ≠ 0b000 ∧ 0b011 < (rmField 0xC4).toNat := by
  unfold Memory.Holds State.executing
  decide

/-- XrStepOnInterruptOpcode: the vector absent, and present. -/
theorem witness_interrupt_opcode :
    (xr [0xCD] 0 RegFile.unwritten).executing ∧ Memory.read (xr [0xCD] 0 RegFile.unwritten).mem 0x1000 = some 0xCD ∧
    Memory.read (xr [0xCD] 0 RegFile.unwritten).mem (0x1000 + 1) = none ∧
    (xr [0xCD, 0xFF] 0 RegFile.unwritten).executing ∧
    Memory.read (xr [0xCD, 0xFF] 0 RegFile.unwritten).mem 0x1000 = some 0xCD ∧
    Memory.read (xr [0xCD, 0xFF] 0 RegFile.unwritten).mem (0x1000 + 1) = some 0xFF := by
  unfold State.executing
  decide

/-- XrFaultIsPreciseAndFinal: a step into a fault, a step into a refusal, and a stopped run;
TerminatedRunEndsProcessWithItsCode. -/
theorem witness_stopped :
    after (step (xr [] 0 RegFile.unwritten)) (fun t => decide (t.status = .faulted (.execPastEnd 0x1000))) = true ∧
    after (step (xr [0x90] 0 RegFile.unwritten))
      (fun t => decide (t.status = .refused (.unmodelledInstruction 0x1000 [0x90]))) = true ∧
    ({ xr [] 0 RegFile.unwritten with status := .terminated 0 } : State).phase = .invoked ∧
    ({ xr [] 0 RegFile.unwritten with status := .terminated 0 } : State).status = .terminated 0 := by decide

/-- A Kernel that does what `LinuxI386Int80` asks and, where it returns, leaves registers and memory as they are. -/
def linuxKernel : KernelService := fun _ n x m =>
  if n = 0x80 ∧ x.a = some 1 then .terminate ((x.b.getD 0).toNat)
  else .ret x (m.map fun c => (BitVec.ofNat 32 c.1, c.2))

/-- LinuxExitTerminatesWithB: B written, B unwritten, and A = 4. -/
theorem witness_linux : LinuxI386Int80 linuxKernel ∧
    (xr [0xCD, 0x80] 0 ⟨some 1, some 42, none, none⟩).regs.get .a = some 1 ∧
    (xr [0xCD, 0x80] 0 ⟨some 1, some 42, none, none⟩).regs.get .b = some 42 ∧
    (xr [0xCD, 0x80] 0 ⟨some 1, none, none, none⟩).regs.get .a = some 1 ∧
    (xr [0xCD, 0x80] 0 ⟨some 4, none, none, none⟩).regs.get .a = some 4 := by
  refine ⟨fun draw x m => ⟨fun ha => ⟨((x.b.getD 0).toNat : Int), by simp [linuxKernel, ha], ?_⟩,
    fun ha => ⟨x, m.map fun c => (BitVec.ofNat 32 c.1, c.2), ?_⟩⟩, rfl, rfl, rfl, rfl⟩
  · intro b hb
    simp [hb]
  · simp [linuxKernel, ha]

/-- SentinelDiffersFromTerminationCodes: a Kernel that ends every process with 0, and any sentinel. -/
theorem witness_sentinel : SentinelDistinct (fun _ _ _ _ => .terminate 0) (.pos 254) ∧
    after (execIntWith (fun _ _ _ _ => .terminate 0) 0x80 (xr [0xCD, 0x80] 0 RegFile.unwritten))
      (fun t => decide (t.status = .terminated 0)) = true ∧
    (xr [0xCD, 0x80] 0 RegFile.unwritten).status = .running := by
  refine ⟨?_, by decide, rfl⟩
  intro draw n x m code h
  cases h
  decide

/-- ExitStatusTellsAllocationFailure: a state of the invariant after a failed Acquire, and one before. -/
theorem witness_allocation_failed : State.reset.Inv ∧ State.reset.exitStatus = none ∧
    ∃ s : State, s.Inv ∧ s.phase = .allocationFailed ⟨12, "no memory"⟩ :=
  ⟨reset_inv, rfl, failAllocation ⟨12, "no memory"⟩ (host [] true none .populate),
      { memCanonical := rfl
        streamEmitted := ⟨[], rfl⟩
        regionInside := fun _ h => by cases h
        beforeAcquire := fun h => by cases h
        afterFailure := fun _ _ => ⟨rfl, rfl⟩
        afterAcquire := fun h => by cases h
        afterPopulate := fun h => by cases h
        beforeInvoke := fun _ => rfl
        afterInvoke := fun h => by cases h
        statusDistinct := fun _ h => by cases h }, rfl⟩

end Sys2Proof.Tests
end

section
/-! PROOFS. The Host's requests at the encoder's port (00_scope.md R13): the conversion of each encoder operation, and
the Host step that submits one. -/

namespace Sys2Proof.Machine

/-! ## The port conversion of each encoder operation (40_primitives.md R68) -/

@[simp] theorem portRequest_request (r : Request) : portRequest (.request r) = some (.ok r) := rfl

@[simp] theorem portRequest_loadInt (v : Int) (dest : Register) :
    portRequest (.loadInt v dest) = some ((toWord32 v).map fun w => .loadImm w dest) := rfl

@[simp] theorem portRequest_loadAddr (p : Int) (dest : Register) :
    portRequest (.loadAddr p dest) = some ((toWord32Addr p).map fun w => .loadImm w dest) := rfl

@[simp] theorem portRequest_softIntInt (n : Int) :
    portRequest (.softIntInt n) = some ((toByte n).map fun b => .softInt b) := rfl

/-! ## The Host step on an encoder operation -/

theorem hostOp_of_portRequest {op : HostOp} {conv : Except Fault Request} (hc : portRequest op = some conv)
    (s : State) : hostOp op s = .next (submitRequest conv s) := by
  simp only [hostOp, hc]

theorem hostStep_of_hostQueue {s : State} {op : HostOp} {q : List HostOp} (hq : s.hostQueue = op :: q) :
    hostStep s = hostOp op { s with hostQueue := q } := by
  simp only [hostStep, hq]

/-- The counterpart of `hostStep_cases` for a request: an encoder operation at the front is always submitted. -/
theorem step_of_portRequest {s : State} {op : HostOp} {q : List HostOp} {conv : Except Fault Request}
    (ht : s.hostTurn) (hq : s.hostQueue = op :: q) (hc : portRequest op = some conv) :
    step s = .next (submitRequest conv { s with hostQueue := q }) := by
  rw [step_of_hostTurn ht, hostStep_of_hostQueue hq, hostOp_of_portRequest hc]

end Sys2Proof.Machine

namespace Sys2Proof
open Sys2Proof.Machine

/-- Settles O24: the step is `submitRequest` on the state without the oldest operation, and `submitRequest` writes the
encoder, the response and what was returned only. -/
theorem hostStepSubmitsOneRequest : Obligations.HostStepSubmitsOneRequest :=
  ⟨fun _ _ _ _ ht hq hc => step_of_portRequest ht hq hc,
    portRequest_request, portRequest_loadInt, portRequest_loadAddr, portRequest_softIntInt⟩

end Sys2Proof
end

section
/-! PROOFS. Encode requests on the encoder (41_mov_imm32.md R72, 42_int_n.md R76) and in a run of the machine; what a
step can do to the encoder's record (10_state.md R15, R17). -/

namespace Sys2Proof

@[simp] theorem encodeAll_nil : encodeAll [] = [] := rfl

@[simp] theorem encodeAll_cons (i : Instr) (is : List Instr) : encodeAll (i :: is) = encode i ++ encodeAll is := rfl

@[simp] theorem encodeAll_append (is js : List Instr) : encodeAll (is ++ js) = encodeAll is ++ encodeAll js :=
  List.flatMap_append

theorem fits_mono {cap : Option Nat} {m n : Nat} (h : fits cap n) (hmn : m ≤ n) : fits cap m :=
  fun k hk => hmn.trans (h k hk)

end Sys2Proof

namespace Sys2Proof.Machine

/-! ## One encode request on the encoder -/

theorem EncState.append_of_fits {cap : Option Nat} {bs : List Byte} {e : EncState} (req : Request)
    (hf : e.frozen = false) (hfit : fits cap (e.stream.length + bs.length)) :
    e.append cap req bs = ({ e with stream := e.stream ++ bs }, .ok) := by
  cases cap with
  | none => simp [EncState.append, hf]
  | some k => simp [EncState.append, hf, Nat.not_lt.mpr (hfit k rfl)]

theorem EncState.append_of_frozen {e : EncState} (cap : Option Nat) (req : Request) (bs : List Byte)
    (hf : e.frozen = true) : e.append cap req bs = e.raise (.streamFrozen req) := by
  simp [EncState.append, hf]

theorem EncState.submit_encodeRequest (cap : Option Nat) (i : Instr) (e : EncState) :
    e.submit cap (.ok (encodeRequest i)) = e.append cap (encodeRequest i) (encode i) := by
  cases i <;> rfl

@[simp] theorem EncState.returned_encodeRequest (i : Instr) (e : EncState) :
    e.returned (.ok (encodeRequest i)) = none := by
  cases i <;> rfl

/-! ## One encode request in the Host's turn -/

/-- The state after the encode request in front of the Host's queue appended `bs`, with `q` still pending
(20_memory.md R37). -/
def State.afterAppend (bs : List Byte) (q : List HostOp) (s : State) : State :=
  { s with
    hostQueue := q
    enc := { s.enc with stream := s.enc.stream ++ bs }
    response := some .ok
    returned := none }

section

variable {s : State} {i : Instr} {q : List HostOp} (ht : s.hostTurn)
  (hq : s.hostQueue = .request (encodeRequest i) :: q)
include ht hq

theorem step_encodeRequest_of_fits (hf : s.enc.frozen = false)
    (hfit : fits s.streamCapacity (s.enc.stream.length + (encode i).length)) :
    step s = .next (s.afterAppend (encode i) q) := by
  rw [step_of_portRequest ht hq (portRequest_request _)]
  simp [submitRequest, State.afterAppend, EncState.submit_encodeRequest, EncState.append_of_fits _ hf hfit]

theorem step_encodeRequest_of_frozen (hf : s.enc.frozen = true) :
    step s = .next { s with
      hostQueue := q
      enc := { s.enc with faults := s.enc.faults ++ [.streamFrozen (encodeRequest i)] }
      response := some (.fault (.streamFrozen (encodeRequest i)))
      returned := none } := by
  rw [step_of_portRequest ht hq (portRequest_request _)]
  simp [submitRequest, EncState.submit_encodeRequest, EncState.append_of_frozen _ _ _ hf, EncState.raise]

end

/-! ## The encoder's record over a step: only a submitted request writes it -/

theorem acquire_enc (n : Nat) (s : State) : (acquire n s).enc = s.enc := by
  rcases acquire_cases n s with ⟨r, -, -, -, h⟩ | ⟨d, h⟩ <;> simp [h]

theorem harnessOp_keeps_enc {op : HostOp} {s t : State} (h : harnessOp op s = .next t) : t.enc = s.enc := by
  rcases harnessOp_cases h with ⟨n, -, -, -, rfl⟩ | ⟨r, -, -, -, -, rfl⟩ | ⟨r, -, -, -, rfl⟩
  · exact acquire_enc n s
  · rfl
  · rfl

@[simp] theorem takeKernelOutcome_enc (n : Byte) (o : KernelOutcome) (s : State) :
    (takeKernelOutcome n o s).enc = s.enc := by
  cases o <;> rfl

@[simp] theorem takeFetchError_enc (e : DecodeError) (s : State) : (takeFetchError e s).enc = s.enc := by
  cases e <;> rfl

theorem xrStep_keeps_enc {s t : State} (h : xrStep s = .next t) : t.enc = s.enc := by
  obtain ⟨-, ⟨r, v, rest, -, rfl⟩ | ⟨n, rest, -, rfl⟩ | ⟨e, -, rfl⟩⟩ := xrStep_cases h <;> simp

/-- A step leaves the encoder as it is, or is the Host's and submits the request in front of its queue. -/
theorem step_enc_cases {s t : State} (h : step s = .next t) :
    t.enc = s.enc ∨
    (s.hostTurn ∧ ∃ op q conv, s.hostQueue = op :: q ∧ portRequest op = some conv ∧
      t.enc = (s.enc.submit s.streamCapacity conv).1 ∧
      t.response = some (s.enc.submit s.streamCapacity conv).2) := by
  rcases step_cases h with ⟨ht, hh⟩ | ⟨-, hx⟩
  · obtain ⟨op, q, hq, ⟨conv, hc, rfl⟩ | ho⟩ := hostStep_cases hh
    · exact .inr ⟨ht, op, q, conv, hq, hc, rfl, rfl⟩
    · have henc := harnessOp_keeps_enc ho
      exact .inl henc
  · exact .inl (xrStep_keeps_enc hx)

/-- A step from a frozen stream submits no request that appends: it freezes again, or records a fault. -/
theorem step_keeps_frozen {s t : State} (h : step s = .next t) (hf : s.enc.frozen = true) :
    t.enc.frozen = true ∧ t.enc.stream = s.enc.stream := by
  rcases step_enc_cases h with henc | ⟨-, op, q, conv, -, -, henc, -⟩
  · rw [henc]
    exact ⟨hf, rfl⟩
  · rcases EncState.submit_cases s.streamCapacity conv s.enc with ⟨i, -, hunfrozen, -⟩ | hsub | ⟨f, hsub⟩
    · simp [hf] at hunfrozen
    · rw [henc, hsub]
      exact ⟨rfl, rfl⟩
    · rw [henc, hsub]
      exact ⟨hf, rfl⟩

end Sys2Proof.Machine

namespace Sys2Proof
open Sys2Proof.Machine

/-- Settles O26, by induction on the program: the first request appends its instruction, and leaves room for the
rest. -/
theorem encodeRequestsEmitTheProgram : Obligations.EncodeRequestsEmitTheProgram := by
  intro is q
  induction is with
  | nil =>
    intro s _ _ _ hq
    refine ⟨s, rfl, ?_⟩
    simp only [encodeAll_nil, List.append_nil]
    rw [← show s.hostQueue = q from hq]
  | cons i is ih =>
    intro s ht hf hfit hq
    rw [encodeAll_cons, List.length_append] at hfit
    have hstep := step_encodeRequest_of_fits ht hq hf (fits_mono hfit (by omega))
    have hrest : fits s.streamCapacity ((s.enc.stream ++ encode i).length + (encodeAll is).length) :=
      fits_mono hfit (by simp [Nat.add_assoc])
    obtain ⟨t, hrun, heq⟩ := ih (s.afterAppend (encode i) _) ht hf hrest rfl
    refine ⟨t, (core_run_succ _ hstep).trans hrun, ?_⟩
    simpa only [State.afterAppend, encodeAll_cons, List.append_assoc] using heq

/-- Settles O27: a step writes the encoder only by a submitted request, and of its three outcomes only an encode
request answered `ok` changes the stream. -/
theorem streamOnlyGrowsByEncodeRequests : Obligations.StreamOnlyGrowsByEncodeRequests := by
  intro s t h
  rcases step_enc_cases h with henc | ⟨ht, op, q, conv, hq, hc, henc, hresp⟩
  · rw [henc]
    exact ⟨List.prefix_rfl, .inl rfl⟩
  · rcases EncState.submit_cases s.streamCapacity conv s.enc with ⟨i, rfl, hf, hsub⟩ | hsub | ⟨f, hsub⟩
    · rw [hsub] at henc hresp
      rw [henc]
      exact ⟨List.prefix_append _ _, .inr ⟨ht, hf, hresp, i, op, q, hq, hc, rfl⟩⟩
    · rw [henc, hsub]
      exact ⟨List.prefix_rfl, .inl rfl⟩
    · rw [henc, hsub]
      exact ⟨List.prefix_rfl, .inl rfl⟩

/-- Settles O28: a request on a frozen stream freezes it again or records a fault, an encode request `StreamFrozen`. -/
theorem frozenStreamStaysAndRejectsEncodes : Obligations.FrozenStreamStaysAndRejectsEncodes :=
  ⟨fun _ _ => rfl, fun _ _ h hf => step_keeps_frozen h hf,
    fun _ _ _ ht hf hq => step_encodeRequest_of_frozen ht hq hf⟩

/-- Settles O1: creation of the encoder gives the three values (10_state.md R25). -/
theorem resetLeavesEncoderEmptyAndUnfrozen : Obligations.ResetLeavesEncoderEmptyAndUnfrozen :=
  ⟨rfl, rfl, rfl⟩

/-- Settles O2: at reset the phase is `encoding` with no region and empty memory, so the clauses about every later
phase hold for want of their premise. -/
theorem invariantHoldsAtReset : Obligations.InvariantHoldsAtReset :=
  show State.reset.Inv from
    { memCanonical := Memory.wf_reset
      streamEmitted := ⟨[], rfl⟩
      regionInside := nofun
      beforeAcquire := fun _ => ⟨rfl, rfl⟩
      afterFailure := nofun
      afterAcquire := nofun
      afterPopulate := nofun
      beforeInvoke := fun _ => rfl
      afterInvoke := nofun
      statusDistinct := nofun }

end Sys2Proof
end

section
/-! PROOFS. The XR over memory that holds a program's bytes (42_int_n.md R78, 70_reset_and_hazards.md R112), and what
its step does to the pc and the registers (10_state.md R24, R26). -/

namespace Sys2Proof

/-! ## Decoding an encoded instruction (30_encoding.md R52 to R56) -/

theorem modField_registerDirect (r : Register) :
    modField (composeAddressingByte .registerDirect 0b000 (regCode r).toNat) = 0b11 := by
  cases r <;> decide

theorem regField_registerDirect (r : Register) :
    regField (composeAddressingByte .registerDirect 0b000 (regCode r).toNat) = 0b000 := by
  cases r <;> decide

theorem rmField_registerDirect (r : Register) :
    rmField (composeAddressingByte .registerDirect 0b000 (regCode r).toNat) = regCode r := by
  cases r <;> decide

@[simp] theorem regOfCode_regCode (r : Register) : regOfCode (regCode r) = some r := by
  cases r <;> rfl

/-- R55 undoes R34: bit `k` of the assembled word comes from byte `k / 8` alone. -/
theorem assembleImm_byteOf (v : Word32) :
    assembleImm (byteOf v 0) (byteOf v 1) (byteOf v 2) (byteOf v 3) = v := by
  ext k hk
  simp only [assembleImm, byteOf, BitVec.getElem_or, BitVec.getElem_setWidth, BitVec.getElem_shiftLeft,
    BitVec.getLsbD_extractLsb']
  grind

theorem decode_encode_append (i : Instr) (rest : List Byte) : decode (encode i ++ rest) = .ok (i, rest) := by
  cases i with
  | mov r v =>
    simp [encode, decode, decodeMov, modField_registerDirect, regField_registerDirect, rmField_registerDirect,
      assembleImm_byteOf]
  | int n => rfl

theorem encode_length_le (i : Instr) : (encode i).length ≤ maxInstrBytes := by
  cases i with
  | mov r v =>
    obtain ⟨-, hlen, hmax⟩ := Laws.EncodedLength.mov r v
    exact hlen.trans_le hmax
  | int n =>
    obtain ⟨-, hlen, hmax⟩ := Laws.EncodedLength.int n
    exact hlen.trans_le hmax

end Sys2Proof

namespace Sys2Proof.Machine

/-! ## The fetch at the pc -/

theorem fetchDecode_of_holds {s : State} {i : Instr} (h : s.mem.Holds s.pc (encode i)) :
    ∃ rest, fetchDecode s = .ok (i, rest) := by
  obtain ⟨rest, hw⟩ := fetchWindow_of_holds h (encode_length_le i)
  exact ⟨rest, by rw [fetchDecode, hw, decode_encode_append]⟩

theorem step_of_holds {s : State} {i : Instr} (hx : s.executing) (h : s.mem.Holds s.pc (encode i)) :
    step s = exec i s := by
  obtain ⟨rest, hd⟩ := fetchDecode_of_holds h
  exact step_of_decode hx.1 hx.2 hd

theorem fetchDecode_of_absent {s : State} (h : Memory.read s.mem s.pc = none) :
    fetchDecode s = .error .truncated := by
  rw [fetchDecode, fetchWindow_absent h]
  rfl

/-! ## A stop leaves pc and registers (60_exceptions.md R98) -/

@[simp] theorem takeFetchError_pc (e : DecodeError) (s : State) : (takeFetchError e s).pc = s.pc := by
  cases e <;> rfl

@[simp] theorem takeFetchError_regs (e : DecodeError) (s : State) : (takeFetchError e s).regs = s.regs := by
  cases e <;> rfl

theorem takeFetchError_status_ne_running (e : DecodeError) (s : State) : (takeFetchError e s).status ≠ .running := by
  cases e <;> nofun

/-- A Kernel outcome returns behind the instruction with `status` as it was, or stops the XR on it. -/
theorem takeKernelOutcome_pc_cases (n : Byte) (o : KernelOutcome) (s : State) :
    ((takeKernelOutcome n o s).status = s.status ∧ (takeKernelOutcome n o s).pc = s.pc + 2#32) ∨
    ((takeKernelOutcome n o s).status ≠ .running ∧ (takeKernelOutcome n o s).pc = s.pc) := by
  rcases takeKernelOutcome_cases n o s with ⟨x, cells, -, h⟩ | ⟨c, -, h⟩ | ⟨info, -, h⟩ <;> simp [h]

end Sys2Proof.Machine

namespace Sys2Proof
open Sys2Proof.Machine

/-- Settles O38: the program's bytes split at the pc, so the fetch there reads the k-th instruction's own encoding;
past the last it reads nothing. -/
theorem xrExecutesStreamInEmissionOrder : Obligations.XrExecutesStreamInEmissionOrder := by
  intro s base pre post hx hm hpc
  rw [encodeAll_append, Memory.holds_append, ← hpc] at hm
  obtain ⟨-, hpost⟩ := hm
  constructor
  · rintro i is rfl
    rw [encodeAll_cons, Memory.holds_append] at hpost
    exact step_of_holds hx hpost.1
  · intro _ habsent
    exact step_of_decode_error hx.1 hx.2 (fetchDecode_of_absent habsent)

/-- Settles O45: a load advances the pc by 6 and a return from the Kernel by 2, the lengths of their encodings; every
other outcome of an XR step stops it where it is. -/
theorem pcAdvancesByInstructionLength : Obligations.PcAdvancesByInstructionLength := by
  refine ⟨fun _ _ => rfl, fun s t hx h => ?_⟩
  rw [step_of_invoked hx.1] at h
  obtain ⟨hs, ⟨r, v, rest, hd, rfl⟩ | ⟨n, rest, hd, rfl⟩ | ⟨e, -, rfl⟩⟩ := xrStep_cases h
  · exact ⟨fun _ => ⟨_, rest, hd, rfl⟩, fun hstop => absurd hs hstop⟩
  · rcases takeKernelOutcome_pc_cases n (Config.kernelService s.draws n s.regs s.mem) (countDraw s) with
      ⟨hst, hpc⟩ | ⟨hst, hpc⟩
    · exact ⟨fun _ => ⟨_, rest, hd, hpc⟩, fun hstop => absurd (hst.trans hs) hstop⟩
    · exact ⟨fun hrun => absurd hrun hst, fun _ => hpc⟩
  · exact ⟨fun hrun => absurd hrun (takeFetchError_status_ne_running e s), fun _ => takeFetchError_pc e s⟩

/-- Settles O46: a load writes its own register only, and a fetch that finds no instruction writes none. -/
theorem onlyLoadAndKernelWriteRegisters : Obligations.OnlyLoadAndKernelWriteRegisters := by
  intro s t r hx h hne
  rw [step_of_invoked hx.1] at h
  obtain ⟨-, ⟨q, v, rest, hd, rfl⟩ | ⟨n, rest, hd, -⟩ | ⟨e, -, rfl⟩⟩ := xrStep_cases h
  · have hr : r = q := by
      by_contra hrq
      exact hne (RegFile.get_set_other s.regs v hrq)
    subst hr
    exact .inl ⟨v, rest, hd, RegFile.get_set_same s.regs r v⟩
  · exact .inr ⟨n, rest, hd⟩
  · exact absurd (by rw [takeFetchError_regs]) hne

end Sys2Proof
end

section
/-! PROOFS. What a step can do to memory (20_memory.md R40, R41, R45). -/

namespace Sys2Proof.Machine

/-! ## The Host before Invoke: Populate alone writes -/

@[simp] theorem acquire_mem (n : Nat) (s : State) : (acquire n s).mem = s.mem := by
  rcases acquire_cases n s with ⟨r, -, -, -, h⟩ | ⟨d, h⟩ <;> simp [h]

theorem harnessOp_mem_cases {op : HostOp} {s t : State} (h : harnessOp op s = .next t) :
    t.mem = s.mem ∨ (op = .populate ∧ s.phase = .acquired ∧ t.phase = .populated) := by
  rcases harnessOp_cases h with ⟨n, -, -, -, rfl⟩ | ⟨r, hop, hp, -, -, rfl⟩ | ⟨r, -, -, -, rfl⟩
  · exact .inl (acquire_mem n s)
  · exact .inr ⟨hop, hp, rfl⟩
  · exact .inl (invoke_mem r s)

theorem hostStep_mem_cases {s t : State} (h : hostStep s = .next t) :
    t.mem = s.mem ∨ (s.phase = .acquired ∧ t.phase = .populated ∧ ∃ q, s.hostQueue = .populate :: q) := by
  obtain ⟨op, q, hq, ⟨conv, -, rfl⟩ | ho⟩ := hostStep_cases h
  · exact .inl (submitRequest_mem conv _)
  · rcases harnessOp_mem_cases ho with hmem | ⟨rfl, hp, ht⟩
    · exact .inl hmem
    · exact .inr ⟨hp, ht, q, hq⟩

/-! ## The XR after it: the Kernel alone writes -/

@[simp] theorem takeFetchError_mem (e : DecodeError) (s : State) : (takeFetchError e s).mem = s.mem := by
  cases e <;> rfl

theorem xrStep_mem_cases {s t : State} (h : xrStep s = .next t) :
    t.mem = s.mem ∨ (s.status = .running ∧ ∃ n rest, fetchDecode s = .ok (.int n, rest)) := by
  obtain ⟨hs, ⟨r, v, rest, -, rfl⟩ | ⟨n, rest, hd, -⟩ | ⟨e, -, rfl⟩⟩ := xrStep_cases h
  · exact .inl rfl
  · exact .inr ⟨hs, n, rest, hd⟩
  · exact .inl (takeFetchError_mem e s)

end Sys2Proof.Machine

namespace Sys2Proof
open Sys2Proof.Machine

/-- Settles O47: in the Host's turn only Populate writes memory, and after Invoke only the Kernel that an interrupt
enters. -/
theorem onlyPopulateAndKernelWriteMemory : Obligations.OnlyPopulateAndKernelWriteMemory := by
  intro s t h hne
  rcases step_cases h with ⟨-, hh⟩ | ⟨hp, hx⟩
  · exact .inl ((hostStep_mem_cases hh).resolve_left hne)
  · obtain ⟨hs, hint⟩ := (xrStep_mem_cases hx).resolve_left hne
    exact .inr ⟨⟨hp, hs⟩, hint⟩

end Sys2Proof
end

section
/-! PROOFS. Every step keeps `State.Inv` (30_encoding.md R57, 10_state.md R27, 20_memory.md R33, 70_reset_and_hazards.md
R110): one lemma per operation that leads from one phase of R110 to the next, and one for each kind of step that stays
in its phase. -/

namespace Sys2Proof.Machine

/-! ## What every step keeps of the stream (R57) -/

/-- A step appends whole instructions to the stream or none. -/
theorem step_keeps_streamEmitted {s t : State} (h : step s = .next t) (hs : ∃ is, s.enc.stream = encodeAll is) :
    ∃ is, t.enc.stream = encodeAll is := by
  obtain ⟨is, his⟩ := hs
  rcases step_enc_cases h with henc | ⟨-, op, q, conv, -, -, henc, -⟩
  · exact ⟨is, by rw [henc, his]⟩
  · rcases EncState.submit_cases s.streamCapacity conv s.enc with ⟨i, -, -, hsub⟩ | hsub | ⟨f, hsub⟩
    · exact ⟨is ++ [i], by simp [henc, hsub, his]⟩
    · exact ⟨is, by rw [henc, hsub, his]⟩
    · exact ⟨is, by rw [henc, hsub, ← his]; rfl⟩

/-! ## Steps that stay in their phase -/

/-- The invariant speaks of phase, region, memory, status and stream only, and asks of a stream that it changes to be
unfrozen. -/
theorem State.Inv.of_same_harness {s t : State} (hs : s.Inv) (hphase : t.phase = s.phase)
    (hregion : t.region = s.region) (hmem : t.mem = s.mem) (hstatus : t.status = s.status)
    (hstream : ∃ is, t.enc.stream = encodeAll is)
    (hfrozen : s.enc.frozen = true → t.enc.frozen = true ∧ t.enc.stream = s.enc.stream) : t.Inv where
  memCanonical := hmem ▸ hs.memCanonical
  streamEmitted := hstream
  regionInside := hregion ▸ hs.regionInside
  beforeAcquire := by
    rw [hphase, hregion, hmem]
    exact hs.beforeAcquire
  afterFailure := by
    rw [hphase, hregion, hmem]
    exact hs.afterFailure
  afterAcquire := by
    rw [hphase, hregion, hmem]
    intro hp
    obtain ⟨hf, hrest⟩ := hs.afterAcquire hp
    exact ⟨(hfrozen hf).1, hrest⟩
  afterPopulate := by
    rw [hphase, hregion, hmem]
    intro hp
    obtain ⟨hf, hrest⟩ := hs.afterPopulate hp
    obtain ⟨hf', hst⟩ := hfrozen hf
    exact ⟨hf', hst ▸ hrest⟩
  beforeInvoke := by
    rw [hphase, hstatus]
    exact hs.beforeInvoke
  afterInvoke := by
    rw [hphase, hregion]
    intro hp
    obtain ⟨hf, hrest⟩ := hs.afterInvoke hp
    obtain ⟨hf', hst⟩ := hfrozen hf
    exact ⟨hf', hst ▸ hrest⟩
  statusDistinct := hstatus ▸ hs.statusDistinct

/-- Once invoked, any canonical memory and any status but a termination with the sentinel's code will do. -/
theorem State.Inv.of_invoked {s t : State} (hs : s.Inv) (hp : s.phase = .invoked) (hphase : t.phase = s.phase)
    (hregion : t.region = s.region) (henc : t.enc = s.enc) (hmem : Memory.wf t.mem = true)
    (hstatus : ∀ code, t.status = .terminated code → code ≠ Config.allocFailStatus.toInt) : t.Inv where
  memCanonical := hmem
  streamEmitted := henc ▸ hs.streamEmitted
  regionInside := hregion ▸ hs.regionInside
  beforeAcquire := by simp [hphase, hp]
  afterFailure := by simp [hphase, hp]
  afterAcquire := by simp [hphase, hp]
  afterPopulate := by simp [hphase, hp]
  beforeInvoke := by simp [hphase, hp]
  afterInvoke := by
    rw [hphase, henc, hregion]
    exact hs.afterInvoke
  statusDistinct := hstatus

theorem State.Inv.dequeue {s : State} (hs : s.Inv) (q : List HostOp) : State.Inv { s with hostQueue := q } :=
  hs.of_same_harness rfl rfl rfl rfl hs.streamEmitted fun hf => ⟨hf, rfl⟩

theorem State.Inv.countDraw {s : State} (hs : s.Inv) : (countDraw s).Inv :=
  hs.of_same_harness rfl rfl rfl rfl hs.streamEmitted fun hf => ⟨hf, rfl⟩

/-! ## The operations of R110, from one phase to the next -/

theorem State.Inv.acceptRegion {s : State} (hs : s.Inv) (hp : s.phase = .encoding) (hf : s.enc.frozen = true)
    {r : Region} (hr : r.base.toNat + r.size ≤ 2 ^ 32) : (acceptRegion r s).Inv where
  memCanonical := hs.memCanonical
  streamEmitted := hs.streamEmitted
  regionInside := by
    rintro r' h
    cases h
    exact hr
  beforeAcquire := nofun
  afterFailure := nofun
  afterAcquire := fun _ => ⟨hf, ⟨r, rfl⟩, (hs.beforeAcquire hp).2⟩
  afterPopulate := nofun
  beforeInvoke := fun _ => hs.beforeInvoke (by simp [hp])
  afterInvoke := nofun
  statusDistinct := hs.statusDistinct

theorem State.Inv.failAllocation {s : State} (hs : s.Inv) (hp : s.phase = .encoding) (d : Diagnostic) :
    (failAllocation d s).Inv where
  memCanonical := hs.memCanonical
  streamEmitted := hs.streamEmitted
  regionInside := hs.regionInside
  beforeAcquire := nofun
  afterFailure := fun _ _ => hs.beforeAcquire hp
  afterAcquire := nofun
  afterPopulate := nofun
  beforeInvoke := fun _ => hs.beforeInvoke (by simp [hp])
  afterInvoke := nofun
  statusDistinct := hs.statusDistinct

theorem State.Inv.acquire {s : State} (hs : s.Inv) (hp : s.phase = .encoding) (hf : s.enc.frozen = true) (n : Nat) :
    (acquire n s).Inv := by
  rcases acquire_cases n s with ⟨r, -, -, hinside, h⟩ | ⟨d, h⟩ <;> rw [h]
  · exact hs.countDraw.acceptRegion hp hf hinside
  · exact hs.countDraw.failAllocation hp d

theorem State.Inv.populate {s : State} (hs : s.Inv) (hp : s.phase = .acquired) {r : Region} (hr : s.region = some r)
    (hsize : s.enc.stream.length ≤ r.size) :
    State.Inv { s with mem := Memory.writeBytes s.mem r.base s.enc.stream, phase := .populated } := by
  obtain ⟨hf, -, hmem⟩ := hs.afterAcquire hp
  exact
    { memCanonical := Memory.wf_writeBytes _ _ hs.memCanonical
      streamEmitted := hs.streamEmitted
      regionInside := hs.regionInside
      beforeAcquire := nofun
      afterFailure := nofun
      afterAcquire := nofun
      afterPopulate := fun _ => ⟨hf, r, hr, hsize, by rw [hmem]⟩
      beforeInvoke := fun _ => hs.beforeInvoke (by simp [hp])
      afterInvoke := nofun
      statusDistinct := hs.statusDistinct }

theorem State.Inv.invoke {s : State} (hs : s.Inv) (hp : s.phase = .populated) (r : Region) : (invoke r s).Inv := by
  obtain ⟨hf, r', hr', hsize, -⟩ := hs.afterPopulate hp
  exact
    { memCanonical := hs.memCanonical
      streamEmitted := hs.streamEmitted
      regionInside := hs.regionInside
      beforeAcquire := nofun
      afterFailure := nofun
      afterAcquire := nofun
      afterPopulate := nofun
      beforeInvoke := fun _ => rfl
      afterInvoke := fun _ => ⟨hf, r', hr', hsize⟩
      statusDistinct := nofun }

theorem harnessOp_keeps_inv {op : HostOp} {s t : State} (hs : s.Inv) (h : harnessOp op s = .next t) : t.Inv := by
  rcases harnessOp_cases h with ⟨n, -, hp, hf, rfl⟩ | ⟨r, -, hp, hr, hsize, rfl⟩ | ⟨r, -, hp, -, rfl⟩
  · exact hs.acquire hp hf n
  · exact hs.populate hp hr hsize
  · exact hs.invoke hp r

/-! ## The XR -/

theorem takeKernelOutcome_keeps_inv {s : State} (hs : s.Inv) (hp : s.phase = .invoked) (n : Byte) (o : KernelOutcome)
    (ho : ∀ code, o = .terminate code → code ≠ Config.allocFailStatus.toInt) : (takeKernelOutcome n o s).Inv := by
  cases o with
  | ret x cells => exact hs.of_invoked hp rfl rfl rfl (Memory.wf_ofCells cells) hs.statusDistinct
  | terminate c =>
    refine hs.of_invoked hp rfl rfl rfl hs.memCanonical fun code hcode => ?_
    cases hcode
    exact ho c rfl
  | fault info => exact hs.of_invoked hp rfl rfl rfl hs.memCanonical nofun

theorem takeFetchError_keeps_inv {s : State} (hs : s.Inv) (hp : s.phase = .invoked) (e : DecodeError) :
    (takeFetchError e s).Inv := by
  rcases takeFetchError_cases e s with ⟨h, -⟩ | h <;> rw [h]
  · exact hs.of_invoked hp rfl rfl rfl hs.memCanonical nofun
  · exact hs.of_invoked hp rfl rfl rfl hs.memCanonical nofun

theorem xrStep_keeps_inv {s t : State} (hs : s.Inv) (hp : s.phase = .invoked) (h : xrStep s = .next t) : t.Inv := by
  obtain ⟨-, ⟨r, v, rest, -, rfl⟩ | ⟨n, rest, -, rfl⟩ | ⟨e, -, rfl⟩⟩ := xrStep_cases h
  · exact hs.of_invoked hp rfl rfl rfl hs.memCanonical hs.statusDistinct
  · exact takeKernelOutcome_keeps_inv hs.countDraw hp n _ fun code =>
      kernelService_sentinelDistinct s.draws n s.regs s.mem code
  · exact takeFetchError_keeps_inv hs hp e

/-! ## The whole step -/

theorem step_keeps_inv {s t : State} (hs : s.Inv) (h : step s = .next t) : t.Inv := by
  rcases step_cases h with ⟨-, hh⟩ | ⟨hp, hx⟩
  · obtain ⟨op, q, -, ⟨conv, -, rfl⟩ | ho⟩ := hostStep_cases hh
    · exact hs.of_same_harness rfl rfl rfl rfl (step_keeps_streamEmitted h hs.streamEmitted) (step_keeps_frozen h)
    · exact harnessOp_keeps_inv (hs.dequeue q) ho
  · exact xrStep_keeps_inv hs hp hx

end Sys2Proof.Machine

namespace Sys2Proof
open Sys2Proof.Machine

/-- Settles O3: a request leaves the harness as it is and a frozen stream too, each harness operation leads to what
R110 asks of its next phase, and an XR step keeps encoder and region. -/
theorem stepKeepsInvariant : Obligations.StepKeepsInvariant :=
  fun _ _ hs h => step_keeps_inv hs h

end Sys2Proof
end

section
/-! PROOFS. Bytes and instructions in both directions (30_encoding.md R51 to R58): the decoder answers exactly what the
encoder emits, and the opcode table's rows cover exactly that. -/

namespace Sys2Proof

/-! ## The addressing byte of Format M (R53) -/

theorem regOfCode_eq_some_iff {code : BitVec 3} {r : Register} : regOfCode code = some r ↔ code = regCode r := by
  constructor
  · intro h
    unfold regOfCode at h
    split_ifs at h with ha hc hd hb <;> cases h <;> assumption
  · rintro rfl
    exact regOfCode_regCode r

/-- The three fields of R50 are all of a byte. -/
theorem byte_eq_of_fields {b c : Byte} (hmod : modField b = modField c) (hreg : regField b = regField c)
    (hrm : rmField b = rmField c) : b = c := by
  simp only [modField, regField, rmField, ← BitVec.toNat_inj, BitVec.extractLsb'_toNat,
    Nat.shiftRight_eq_div_pow] at hmod hreg hrm ⊢
  omega

theorem formatMAddressing_registerDirect (r : Register) :
    formatMAddressing (composeAddressingByte .registerDirect 0b000 (regCode r).toNat) = true := by
  cases r <;> decide

/-- The table's mask and pattern of byte 1 of `mov` leave the four register codes. -/
theorem addressingByte_masked_iff (b : Byte) :
    b &&& 0xFC = 0xC0 ↔ ∃ r, b = composeAddressingByte .registerDirect 0b000 (regCode r).toNat := by
  constructor
  · have hbytes : ∀ b : Byte, b &&& 0xFC = 0xC0 → b = 0xC0 ∨ b = 0xC1 ∨ b = 0xC2 ∨ b = 0xC3 := by decide
    intro h
    rcases hbytes b h with rfl | rfl | rfl | rfl
    · exact ⟨.a, rfl⟩
    · exact ⟨.c, rfl⟩
    · exact ⟨.d, rfl⟩
    · exact ⟨.b, rfl⟩
  · rintro ⟨r, rfl⟩
    cases r <;> rfl

/-! ## The immediate (R55) -/

theorem toNat_append_eq_add {m n : Nat} (x : BitVec m) (y : BitVec n) :
    (x ++ y).toNat = x.toNat * 2 ^ n + y.toNat := by
  rw [BitVec.toNat_append, ← Nat.shiftLeft_add_eq_or_of_lt y.isLt, Nat.shiftLeft_eq]

theorem assembleImm_eq_append (b2 b3 b4 b5 : Byte) : assembleImm b2 b3 b4 b5 = b5 ++ b4 ++ b3 ++ b2 := by
  ext k hk
  simp only [assembleImm, BitVec.getElem_or, BitVec.getElem_setWidth, BitVec.getElem_shiftLeft]
  grind

/-- The immediate is its four bytes' little-endian value. -/
theorem assembleImm_toNat (b2 b3 b4 b5 : Byte) :
    (assembleImm b2 b3 b4 b5).toNat = b2.toNat + 256 * b3.toNat + 65536 * b4.toNat + 16777216 * b5.toNat := by
  rw [assembleImm_eq_append]
  simp only [toNat_append_eq_add]
  omega

/-- R34 undoes R55, as `assembleImm_byteOf` says that R55 undoes R34. -/
theorem byteOf_assembleImm (b2 b3 b4 b5 : Byte) :
    byteOf (assembleImm b2 b3 b4 b5) 0 = b2 ∧ byteOf (assembleImm b2 b3 b4 b5) 1 = b3 ∧
      byteOf (assembleImm b2 b3 b4 b5) 2 = b4 ∧ byteOf (assembleImm b2 b3 b4 b5) 3 = b5 := by
  simp only [byteOf, ← BitVec.toNat_inj, BitVec.extractLsb'_toNat, Nat.shiftRight_eq_div_pow, assembleImm_toNat]
  omega

theorem encode_mov_assembleImm (r : Register) (b2 b3 b4 b5 : Byte) :
    encode (.mov r (assembleImm b2 b3 b4 b5)) =
      [opcodeMov, composeAddressingByte .registerDirect 0b000 (regCode r).toNat, b2, b3, b4, b5] := by
  obtain ⟨h0, h1, h2, h3⟩ := byteOf_assembleImm b2 b3 b4 b5
  rw [encode, h0, h1, h2, h3]

/-! ## The decoder answers an instruction only from its encoding (R52 to R56, R60, R61) -/

theorem decodeMov_cases {bs : List Byte} {i : Instr} {rest : List Byte} (h : decodeMov bs = .ok (i, rest)) :
    ∃ b1 b2 b3 b4 b5 r, bs = b1 :: b2 :: b3 :: b4 :: b5 :: rest ∧ i = .mov r (assembleImm b2 b3 b4 b5) ∧
      modField b1 = 0b11 ∧ regField b1 = 0b000 ∧ rmField b1 = regCode r := by
  unfold decodeMov at h
  split at h
  · split_ifs at h with hmod hreg
    split at h
    · rename_i r hrm
      cases h
      exact ⟨_, _, _, _, _, r, rfl, rfl, not_not.mp hmod, not_not.mp hreg, regOfCode_eq_some_iff.mp hrm⟩
    · cases h
  · cases h

theorem eq_encode_append_of_decodeMov {bs : List Byte} {i : Instr} {rest : List Byte}
    (h : decodeMov bs = .ok (i, rest)) : opcodeMov :: bs = encode i ++ rest := by
  obtain ⟨b1, b2, b3, b4, b5, r, rfl, rfl, hmod, hreg, hrm⟩ := decodeMov_cases h
  have hb1 : b1 = composeAddressingByte .registerDirect 0b000 (regCode r).toNat :=
    byte_eq_of_fields (hmod.trans (modField_registerDirect r).symm) (hreg.trans (regField_registerDirect r).symm)
      (hrm.trans (rmField_registerDirect r).symm)
  rw [encode_mov_assembleImm, hb1]
  rfl

theorem eq_encode_append_of_decodeInt {bs : List Byte} {i : Instr} {rest : List Byte}
    (h : decodeInt bs = .ok (i, rest)) : opcodeInt :: bs = encode i ++ rest := by
  cases bs with
  | nil => cases h
  | cons n bs =>
    cases h
    rfl

/-- What the decoder answers, in one line: an instruction exactly from its encoding with the rest behind it. -/
theorem decode_eq_ok_iff {bs : List Byte} {i : Instr} {rest : List Byte} :
    decode bs = .ok (i, rest) ↔ bs = encode i ++ rest := by
  constructor
  · intro h
    cases bs with
    | nil => cases h
    | cons b0 bs =>
      rw [decode] at h
      split_ifs at h with hmov hint
      · rw [hmov]
        exact eq_encode_append_of_decodeMov h
      · rw [hint]
        exact eq_encode_append_of_decodeInt h
  · rintro rfl
    exact decode_encode_append i rest

/-! ## Streams decode by length (R58) -/

theorem encode_ne_nil (i : Instr) : encode i ≠ [] := by
  cases i <;> nofun

theorem encode_append_inj {i j : Instr} {as bs : List Byte} (h : encode i ++ as = encode j ++ bs) :
    i = j ∧ as = bs := by
  have hdecode := decode_eq_ok_iff.mpr h
  rw [decode_encode_append] at hdecode
  cases hdecode
  exact ⟨rfl, rfl⟩

theorem encodeAll_injective {is js : List Instr} (h : encodeAll is = encodeAll js) : is = js := by
  induction is generalizing js with
  | nil =>
    cases js with
    | nil => rfl
    | cons j js => simp [encode_ne_nil] at h
  | cons i is ih =>
    cases js with
    | nil => simp [encode_ne_nil] at h
    | cons j js =>
      obtain ⟨rfl, hrest⟩ := encode_append_inj h
      rw [ih hrest]

theorem decodeStream_succ_of_decode {bs : List Byte} {i : Instr} {rest : List Byte} (fuel : Nat)
    (h : decode bs = .ok (i, rest)) : decodeStream (fuel + 1) bs = (decodeStream fuel rest).map (i :: ·) := by
  cases bs with
  | nil => cases h
  | cons b bs => simp only [decodeStream, h]

theorem decodeStream_encodeAll (is : List Instr) : decodeStream is.length (encodeAll is) = some is := by
  induction is with
  | nil => rfl
  | cons i is ih =>
    rw [encodeAll_cons, List.length_cons, decodeStream_succ_of_decode _ (decode_encode_append i _), ih]
    rfl

theorem encode_head_and_length (i : Instr) :
    ((encode i).head? = some 0xC7 ∧ (encode i).length = 6) ∨
      ((encode i).head? = some 0xCD ∧ (encode i).length = 2) := by
  cases i with
  | mov r v => exact .inl ⟨rfl, rfl⟩
  | int n => exact .inr ⟨rfl, rfl⟩

/-! ## The opcode table's rows (spec/opcode_table.json) -/

@[simp] theorem maskedMatch_nil (bs : List Byte) : maskedMatch [] [] bs = true := by
  cases bs <;> rfl

@[simp] theorem maskedMatch_cons_iff {m p : Byte} {ms ps bs : List Byte} :
    maskedMatch (m :: ms) (p :: ps) bs = true ↔
      ∃ b cs, bs = b :: cs ∧ b &&& m = p ∧ maskedMatch ms ps cs = true := by
  cases bs <;> simp [maskedMatch]

/-- The mask of an opcode byte keeps all of it. -/
theorem byte_and_FF (b : Byte) : b &&& 0xFF = b := BitVec.and_allOnes

theorem mov_row_covers_iff (bs : List Byte) :
    OpcodeRow.covers ⟨"mov", [0xFF, 0xFC, 0x00, 0x00, 0x00, 0x00], [0xC7, 0xC0, 0x00, 0x00, 0x00, 0x00]⟩ bs = true ↔
      ∃ r v rest, bs = encode (.mov r v) ++ rest := by
  simp only [OpcodeRow.covers, maskedMatch_cons_iff, maskedMatch_nil, byte_and_FF, addressingByte_masked_iff]
  constructor
  · rintro ⟨b0, -, rfl, rfl, b1, -, rfl, ⟨r, rfl⟩, b2, -, rfl, -, b3, -, rfl, -, b4, -, rfl, -, b5, rest, rfl, -, -⟩
    exact ⟨r, assembleImm b2 b3 b4 b5, rest, by rw [encode_mov_assembleImm]; rfl⟩
  · rintro ⟨r, v, rest, rfl⟩
    exact ⟨_, _, rfl, rfl, _, _, rfl, ⟨r, rfl⟩, by simp⟩

theorem int_row_covers_iff (bs : List Byte) :
    OpcodeRow.covers ⟨"int", [0xFF, 0x00], [0xCD, 0x00]⟩ bs = true ↔ ∃ n rest, bs = encode (.int n) ++ rest := by
  simp only [OpcodeRow.covers, maskedMatch_cons_iff, maskedMatch_nil, byte_and_FF]
  constructor
  · rintro ⟨b0, -, rfl, rfl, n, rest, rfl, -, -⟩
    exact ⟨n, rest, rfl⟩
  · rintro ⟨n, rest, rfl⟩
    exact ⟨_, _, rfl, rfl, by simp⟩

theorem mnemonic_eq_mov_iff {i : Instr} : i.mnemonic = "mov" ↔ ∃ r v, i = .mov r v := by
  cases i <;> simp [Instr.mnemonic]

theorem mnemonic_eq_int_iff {i : Instr} : i.mnemonic = "int" ↔ ∃ n, i = .int n := by
  cases i <;> simp [Instr.mnemonic]

/-! ## The obligations -/

/-- Settles O6: `decode_encode_append`, since every instruction is well-formed. -/
theorem decodeOfEncodeIsTheInstruction : Obligations.DecodeOfEncodeIsTheInstruction :=
  fun i rest _ => decode_encode_append i rest

/-- Settles O8: the two formats fix head and length, the stream decodes by induction on the program, and equal streams
share their first instruction, which the decoder reads from the front of both. -/
theorem emittedStreamsDecodeUniquely : Obligations.EmittedStreamsDecodeUniquely :=
  ⟨encode_head_and_length, decodeStream_encodeAll, fun _ _ h => encodeAll_injective h⟩

/-- Settles O5: bytes that decode to a load are its encoding, so the assembled bytes are those of its immediate. -/
theorem operandsAreAssembledFromBytes : Obligations.OperandsAreAssembledFromBytes := by
  refine ⟨fun b1 b2 b3 b4 b5 rest r v h => ?_, fun n rest => rfl⟩
  have hbytes := decode_eq_ok_iff.mp h
  have hv : v = assembleImm b2 b3 b4 b5 := by
    simp only [encode, List.cons_append, List.cons.injEq] at hbytes
    obtain ⟨-, -, rfl, rfl, rfl, rfl, -⟩ := hbytes
    exact (assembleImm_byteOf v).symm
  subst hv
  exact ⟨rfl, assembleImm_toNat b2 b3 b4 b5⟩

/-- Settles O7: `decode_eq_ok_iff` from left to right. -/
theorem decodedBytesAreTheEncoding : Obligations.DecodedBytesAreTheEncoding :=
  fun _ _ _ h => decode_eq_ok_iff.mp h

/-- Settles O10: each row covers what begins with an encoding of its instruction, and so does the decoder. -/
theorem decoderFollowsOpcodeTable : Obligations.DecoderFollowsOpcodeTable := by
  intro row hrow bs
  simp only [opcodeTable, List.mem_cons, List.not_mem_nil, or_false] at hrow
  simp only [decode_eq_ok_iff]
  rcases hrow with rfl | rfl
  · rw [mov_row_covers_iff]
    constructor
    · rintro ⟨r, v, rest, h⟩
      exact ⟨.mov r v, rest, h, rfl⟩
    · rintro ⟨i, rest, h, hi⟩
      obtain ⟨r, v, rfl⟩ := mnemonic_eq_mov_iff.mp hi
      exact ⟨r, v, rest, h⟩
  · rw [int_row_covers_iff]
    constructor
    · rintro ⟨n, rest, h⟩
      exact ⟨.int n, rest, h, rfl⟩
    · rintro ⟨i, rest, h, hi⟩
      obtain ⟨n, rfl⟩ := mnemonic_eq_int_iff.mp hi
      exact ⟨n, rest, h⟩

/-- Settles O4: the encoder lists the bytes in this order, and the addressing byte has the three fields of R52. -/
theorem formatBytesByOffset : Obligations.FormatBytesByOffset := by
  refine ⟨fun r v => ⟨rfl, rfl, ⟨_, rfl, modField_registerDirect r, regField_registerDirect r,
    rmField_registerDirect r⟩, fun i hi => ?_⟩, fun n => rfl⟩
  interval_cases i <;> rfl

/-- Settles O9: the decoder evaluated on each word. -/
theorem writtenOutWordsDecode : Obligations.WrittenOutWordsDecode := by
  unfold Obligations.WrittenOutWordsDecode
  decide

/-- Settles O11: the fields of the addressing byte for every register, and its value for each. -/
theorem formatMAddressingBytesAreC0ToC3 : Obligations.FormatMAddressingBytesAreC0ToC3 := by
  refine fun r v => ⟨_, rfl, modField_registerDirect r, regField_registerDirect r, rmField_registerDirect r,
    formatMAddressing_registerDirect r, ?_, ?_, ?_, ?_⟩ <;> rintro rfl <;> rfl

end Sys2Proof
end

section
/-! PROOFS. The encoder's primitives (40_primitives.md): the composed addressing byte, byte extraction, the port
conversions, and the Host step on an operation whose operand the port converts. -/

namespace Sys2Proof

/-! ## The composed addressing byte (R66, R67) -/

theorem ofInt_and_low3 (z : Int) : BitVec.ofInt 8 z &&& 0b111 = (BitVec.ofInt 3 z).setWidth 8 := by
  rw [← BitVec.toNat_inj, BitVec.toNat_and, show (0b111 : Byte).toNat = 2 ^ 3 - 1 from rfl,
    Nat.and_two_pow_sub_one_eq_mod, BitVec.toNat_setWidth, BitVec.toNat_ofInt, BitVec.toNat_ofInt]
  omega

/-- The shifts and ORs of R66 put its three fields side by side. -/
theorem composeAddressingByte_eq_append (mode : AddressingMode) (mid rm : Int) :
    composeAddressingByte mode mid rm = modeCode mode ++ BitVec.ofInt 3 mid ++ BitVec.ofInt 3 rm := by
  rw [composeAddressingByte, ofInt_and_low3, ofInt_and_low3]
  ext k hk
  simp only [BitVec.getElem_or, BitVec.getElem_setWidth, BitVec.getElem_shiftLeft]
  grind

theorem modField_append (m : BitVec 2) (g r : BitVec 3) : modField (m ++ g ++ r) = m := by
  rw [modField, BitVec.extractLsb'_append_eq_of_le (by decide)]
  exact BitVec.extractLsb'_append_eq_left

theorem regField_append (m : BitVec 2) (g r : BitVec 3) : regField (m ++ g ++ r) = g := by
  rw [regField, BitVec.extractLsb'_append_eq_of_le (by decide)]
  exact BitVec.extractLsb'_append_eq_right

theorem rmField_append (m : BitVec 2) (g r : BitVec 3) : rmField (m ++ g ++ r) = r :=
  BitVec.extractLsb'_append_eq_right

@[simp] theorem modeOfCode_modeCode (mode : AddressingMode) : modeOfCode (modeCode mode) = mode := by
  cases mode <;> rfl

/-! ## The bytes of a word (R69) -/

theorem byteOf_toNat (v : Word32) (i : Nat) : (byteOf v i).toNat = v.toNat / 2 ^ (8 * i) % 256 := by
  rw [byteOf, BitVec.extractLsb'_toNat, Nat.shiftRight_eq_div_pow]

end Sys2Proof

namespace Sys2Proof.Machine

theorem extractLittleEndianByte_of_lt (v : Word32) {i : Nat} (h : i < 4) :
    extractLittleEndianByte v i = .ok (byteOf v i) := by
  simp [extractLittleEndianByte, byteIndexInRange, h]

theorem extractLittleEndianByte_of_ge (v : Word32) {i : Nat} (h : 4 ≤ i) :
    extractLittleEndianByte v i = .error (.unsupportedOperand i) := by
  simp [extractLittleEndianByte, byteIndexInRange, h]

/-! ## The port conversions (R68) -/

theorem toNat_ofInt_of_inRange {n : Nat} {z : Int} (h0 : 0 ≤ z) (h : z < 2 ^ n) :
    ((BitVec.ofInt n z).toNat : Int) = z := by
  rw [BitVec.toNat_ofInt, Int.natCast_pow, Nat.cast_ofNat, Int.emod_eq_of_lt h0 h, Int.toNat_of_nonneg h0]

theorem toWord32_of_inRange {v : Int} (h : -(2 ^ 31) ≤ v ∧ v ≤ 2 ^ 31 - 1) :
    ∃ w, toWord32 v = .ok w ∧ w.toInt = v := by
  refine ⟨_, if_pos ?_, BitVec.toInt_ofInt_eq_self (by decide) h.1 (by omega)⟩
  simpa [immediateInRange] using h

theorem toWord32_of_outOfRange {v : Int} (h : v < -(2 ^ 31) ∨ 2 ^ 31 - 1 < v) :
    toWord32 v = .error (.unsupportedOperand v) := by
  refine if_neg ?_
  simp only [immediateInRange, Bool.and_eq_true, decide_eq_true_eq]
  omega

theorem toWord32Addr_of_inRange {p : Int} (h : 0 ≤ p ∧ p ≤ 2 ^ 32 - 1) :
    ∃ w, toWord32Addr p = .ok w ∧ (w.toNat : Int) = p := by
  refine ⟨_, if_pos ?_, toNat_ofInt_of_inRange h.1 (by omega)⟩
  simpa [addressInRange] using h

theorem toWord32Addr_of_outOfRange {p : Int} (h : p < 0 ∨ 2 ^ 32 - 1 < p) :
    toWord32Addr p = .error (.unsupportedOperand p) := by
  refine if_neg ?_
  simp only [addressInRange, Bool.and_eq_true, decide_eq_true_eq]
  omega

theorem toByte_of_inRange {n : Int} (h : 0 ≤ n ∧ n ≤ 255) : ∃ b, toByte n = .ok b ∧ (b.toNat : Int) = n := by
  refine ⟨_, if_pos ?_, toNat_ofInt_of_inRange h.1 (by omega)⟩
  simpa [vectorInRange] using h

theorem toByte_of_outOfRange {n : Int} (h : n < 0 ∨ 255 < n) : toByte n = .error (.unsupportedOperand n) := by
  refine if_neg ?_
  simp only [vectorInRange, Bool.and_eq_true, decide_eq_true_eq]
  omega

/-! ## The Host step on an operation with an operand to convert -/

section

variable {α : Type} {s : State} {op : HostOp} {q : List HostOp} {c : Except Fault α} {toRequest : α → Request}
  (ht : s.hostTurn) (hq : s.hostQueue = op :: q) (hc : portRequest op = some (c.map toRequest))
include ht hq hc

/-- A converted operation steps as the plain request for the converted operand. -/
theorem step_of_converted {x : α} (hx : c = .ok x) :
    step s = step { s with hostQueue := .request (toRequest x) :: q } := by
  subst hx
  rw [step_of_portRequest ht hq hc]
  exact (step_of_portRequest (s := { s with hostQueue := .request (toRequest x) :: q }) ht rfl
    (portRequest_request _)).symm

theorem step_of_failed_conversion {v : Int} (hv : c = .error (.unsupportedOperand v)) :
    step s = .next (s.afterFailedConversion v q) := by
  subst hv
  exact step_of_portRequest ht hq hc

end

end Sys2Proof.Machine

namespace Sys2Proof
open Sys2Proof.Machine

/-- Settles O12: the composed byte is its three fields side by side, each already cut to its width. -/
theorem addressingByteFieldsRecoverInputs : Obligations.AddressingByteFieldsRecoverInputs := by
  intro mode mid rm
  rw [composeAddressingByte_eq_append, modField_append]
  exact ⟨rfl, modeOfCode_modeCode mode, regField_append _ _ _, rmField_append _ _ _⟩

/-- Settles O15: the extracted bytes are those of `byteOf`, and R55 assembles them to the word again. -/
theorem littleEndianBytesReassemble : Obligations.LittleEndianBytesReassemble := by
  refine ⟨fun v => ⟨byteOf v 0, byteOf v 1, byteOf v 2, byteOf v 3, rfl, rfl, rfl, rfl, assembleImm_byteOf v⟩,
    fun i hi => ?_⟩
  rw [extractLittleEndianByte_of_lt _ hi]
  interval_cases i <;> rfl

/-- Settles O16: each conversion in its range and outside it, and a failed one is submitted as its fault. -/
theorem portConversionsKeepOrFault : Obligations.PortConversionsKeepOrFault :=
  ⟨fun _ h h' => toWord32_of_inRange ⟨h, h'⟩, fun _ h => toWord32_of_outOfRange h,
    fun _ h h' => toWord32Addr_of_inRange ⟨h, h'⟩, fun _ h => toWord32Addr_of_outOfRange h,
    fun _ h h' => toByte_of_inRange ⟨h, h'⟩, fun _ h => toByte_of_outOfRange h, fun _ _ _ => rfl⟩

/-- Settles O25: each operation's port request is its conversion's answer, so the step follows the conversion's two
cases. -/
theorem hostIntegerOperationsConvertOrFault : Obligations.HostIntegerOperationsConvertOrFault := by
  intro s v dest q ht
  refine ⟨fun hq => ⟨fun h => ?_, fun h => ?_⟩, fun hq => ⟨fun h => ?_, fun h => ?_⟩,
    fun hq => ⟨fun h => ?_, fun h => ?_⟩⟩
  · obtain ⟨w, hw, hval⟩ := toWord32_of_inRange h
    exact ⟨w, hval, step_of_converted ht hq (portRequest_loadInt v dest) hw⟩
  · exact step_of_failed_conversion ht hq (portRequest_loadInt v dest) (toWord32_of_outOfRange h)
  · obtain ⟨w, hw, hval⟩ := toWord32Addr_of_inRange h
    exact ⟨w, hval, step_of_converted ht hq (portRequest_loadAddr v dest) hw⟩
  · exact step_of_failed_conversion ht hq (portRequest_loadAddr v dest) (toWord32Addr_of_outOfRange h)
  · obtain ⟨b, hb, hval⟩ := toByte_of_inRange h
    exact ⟨b, hval, step_of_converted ht hq (portRequest_softIntInt v) hb⟩
  · exact step_of_failed_conversion ht hq (portRequest_softIntInt v) (toByte_of_outOfRange h)

/-- Settles O13: an index below 4 is in range, and the byte is the word shifted by 8 bits an index. -/
theorem extractedByteIsTheWordsByte : Obligations.ExtractedByteIsTheWordsByte :=
  fun v i hi => ⟨extractLittleEndianByte_of_lt v hi, byteOf_toNat v i⟩

/-- Settles O14: an index of 4 or more fails the range check of R71. -/
theorem wideByteIndexFaults : Obligations.WideByteIndexFaults :=
  fun v _ hi => extractLittleEndianByte_of_ge v hi

end Sys2Proof
end

section
/-! PROOFS. The load form (41_mov_imm32.md): its request on the encoder (R72, R74), its execution (R73, R75), the XR's
step with its opcode at the pc, and a whole program of loads. -/

namespace Sys2Proof

/-! ## The bytes of a load (30_encoding.md R52, R53) -/

/-- R52's fields, put together by shift and OR as R74 writes them. -/
theorem encode_mov_bytes (r : Register) (v : Word32) :
    encode (.mov r v) = [(0xC7 : Byte), 0b11000000 ||| ((0b000 : Byte) <<< 3) ||| (regCode r).setWidth 8,
      v.extractLsb' 0 8, v.extractLsb' 8 8, v.extractLsb' 16 8, v.extractLsb' 24 8] := by
  cases r <;> rfl

/-- `encode_mov_assembleImm` with the addressing byte given by its fields. -/
theorem encode_mov_of_fields {b1 : Byte} {r : Register} (hmod : modField b1 = 0b11) (hreg : regField b1 = 0b000)
    (hrm : rmField b1 = regCode r) (b2 b3 b4 b5 : Byte) :
    encode (.mov r (assembleImm b2 b3 b4 b5)) = [0xC7, b1, b2, b3, b4, b5] := by
  have hb1 : b1 = composeAddressingByte .registerDirect 0b000 (regCode r).toNat :=
    byte_eq_of_fields (hmod.trans (modField_registerDirect r).symm) (hreg.trans (regField_registerDirect r).symm)
      (hrm.trans (rmField_registerDirect r).symm)
  rw [encode_mov_assembleImm, ← hb1, opcodeMov]

/-! ## What the decoder rejects behind the opcode C7 (60_exceptions.md R96: the length first) -/

theorem regOfCode_eq_none {code : BitVec 3} (h : 0b011 < code.toNat) : regOfCode code = none := by
  cases hr : regOfCode code with
  | none => rfl
  | some r =>
    rw [regOfCode_eq_some_iff.mp hr] at h
    cases r <;> simp [regCode] at h

theorem decodeMov_of_length_lt {bs : List Byte} (h : bs.length < 5) : decodeMov bs = .error .truncated := by
  unfold decodeMov
  split
  · simp only [List.length_cons] at h
    omega
  · rfl

/-- An addressing byte that is none of Format M's is rejected with the six bytes, whichever field is at fault. -/
theorem decodeMov_of_other_addressing {b1 : Byte}
    (h : modField b1 ≠ 0b11 ∨ regField b1 ≠ 0b000 ∨ 0b011 < (rmField b1).toNat) (b2 b3 b4 b5 : Byte)
    (rest : List Byte) :
    ∃ e, decodeMov (b1 :: b2 :: b3 :: b4 :: b5 :: rest) = .error e ∧ e ≠ .truncated ∧
      e.bytes = [opcodeMov, b1, b2, b3, b4, b5] := by
  by_cases hmod : modField b1 = 0b11
  · by_cases hreg : regField b1 = 0b000
    · have hrm := regOfCode_eq_none ((h.resolve_left (not_not.mpr hmod)).resolve_left (not_not.mpr hreg))
      exact ⟨.registerCode _, by simp [decodeMov, hmod, hreg, hrm], nofun, rfl⟩
    · exact ⟨.opcodeExtension _, by rw [decodeMov, if_neg (not_not.mpr hmod), if_pos hreg], nofun, rfl⟩
  · exact ⟨.memoryOperand _, by rw [decodeMov, if_pos hmod], nofun, rfl⟩

end Sys2Proof

namespace Sys2Proof.Machine

/-! ## The request on the encoder (R72) -/

/-- The third case beside `append_of_fits` and `append_of_frozen`. -/
theorem EncState.append_of_overflow {k : Nat} {bs : List Byte} {e : EncState} (req : Request)
    (hf : e.frozen = false) (hk : k < e.stream.length + bs.length) :
    e.append (some k) req bs = e.raise (.streamOverflow e.stream.length bs.length) := by
  simp [EncState.append, hf, hk]

theorem EncState.handle_loadImm (cap : Option Nat) (v : Word32) (r : Register) (e : EncState) :
    e.handle cap (.loadImm v r) = e.append cap (.loadImm v r) (encode (.mov r v)) := rfl

/-- The converse of `append_of_fits` as to the answer: `ok` is answered only with the bytes appended. -/
theorem EncState.append_stream_of_ok {cap : Option Nat} {req : Request} {bs : List Byte} {e : EncState}
    (h : (e.append cap req bs).2 = .ok) : (e.append cap req bs).1.stream = e.stream ++ bs := by
  rcases EncState.append_cases cap req bs e with ⟨-, happ⟩ | ⟨f, happ⟩
  · rw [happ]
  · rw [happ] at h
    cases h

/-! ## Registers under loads (R73, R75) -/

theorem RegFile.set_set (x : RegFile) (r : Register) (v w : Word32) : (x.set r v).set r w = x.set r w := by
  cases r <;> rfl

theorem RegFile.get_set (x : RegFile) (r q : Register) (v : Word32) :
    (x.set r v).get q = if r = q then some v else x.get q := by
  split
  · next h =>
    rw [← h]
    exact RegFile.get_set_same x r v
  · next h => exact RegFile.get_set_other x v (Ne.symm h)

/-- The registers behind a program of loads, first load first. -/
def RegFile.loadAll (x : RegFile) : List (Register × Word32) → RegFile
  | [] => x
  | l :: ls => (x.set l.1 l.2).loadAll ls

/-- The last load into a register stands; without one the register holds what it held. -/
theorem RegFile.get_loadAll (ls : List (Register × Word32)) (x : RegFile) (r : Register) :
    (x.loadAll ls).get r = ((ls.reverse.find? fun l => decide (l.1 = r)).map Prod.snd).or (x.get r) := by
  induction ls generalizing x with
  | nil => rfl
  | cons l ls ih =>
    rw [RegFile.loadAll, ih, RegFile.get_set, List.reverse_cons, List.find?_append, Option.map_or, Option.or_assoc]
    congr 1
    by_cases h : l.1 = r <;> simp [h]

/-! ## The XR's step with the opcode C7 at the pc (R73) -/

/-- The fetch at an opcode C7 is left to `decodeMov` over the window behind it. -/
theorem fetchDecode_of_opcodeMov {s : State} (h : Memory.read s.mem s.pc = some 0xC7) :
    fetchDecode s = decodeMov (fetchWindow s.mem (s.pc + 1) 5) := by
  simp [fetchDecode, maxInstrBytes, fetchWindow, h, decode, opcodeMov]

theorem fetchDecode_of_absent_operand {s : State} {k : Nat} (h : Memory.read s.mem s.pc = some 0xC7) (hk : k < 6)
    (habsent : Memory.read s.mem (s.pc + BitVec.ofNat 32 k) = none) : fetchDecode s = .error .truncated := by
  rw [fetchDecode_of_opcodeMov h]
  apply decodeMov_of_length_lt
  cases k with
  | zero => simp [h] at habsent
  | succ k =>
    rw [← offset_succ] at habsent
    have hlen := fetchWindow_length_le (n := 5) habsent
    omega

theorem fetchDecode_of_other_addressing {s : State} {b1 b2 b3 b4 b5 : Byte}
    (hm : s.mem.Holds s.pc [0xC7, b1, b2, b3, b4, b5])
    (h : modField b1 ≠ 0b11 ∨ regField b1 ≠ 0b000 ∨ 0b011 < (rmField b1).toNat) :
    ∃ e, fetchDecode s = .error e ∧ e ≠ .truncated ∧ e.bytes = [0xC7, b1, b2, b3, b4, b5] := by
  obtain ⟨hop, hoperands⟩ := Memory.holds_cons.mp hm
  obtain ⟨rest, hw⟩ := fetchWindow_of_holds (n := 5) hoperands (by simp)
  rw [fetchDecode_of_opcodeMov hop, hw]
  exact decodeMov_of_other_addressing h b2 b3 b4 b5 rest

theorem takeFetchError_of_ne_truncated {e : DecodeError} (h : e ≠ .truncated) (s : State) :
    takeFetchError e s = { s with status := .refused (.unmodelledInstruction s.pc e.bytes) } :=
  (takeFetchError_cases e s).resolve_left fun ⟨_, he⟩ => h he

/-! ## A program of loads (70_reset_and_hazards.md R116) -/

theorem run_loads (ls : List (Register × Word32)) {s : State} (hx : s.executing)
    (hm : s.mem.Holds s.pc (encodeAll (ls.map fun l => .mov l.1 l.2))) :
    Host.Core.run core ls.length s =
      .next { s with regs := s.regs.loadAll ls, pc := s.pc + BitVec.ofNat 32 (6 * ls.length) } := by
  induction ls generalizing s with
  | nil => simp [Host.Core.run, RegFile.loadAll]
  | cons l ls ih =>
    rw [List.map_cons, encodeAll_cons, Memory.holds_append] at hm
    obtain ⟨hfirst, hrest⟩ := hm
    have hstep : step s = .next (advancePc 6 (writeReg l.1 l.2 s)) := step_of_holds hx hfirst
    have hpc : s.pc + BitVec.ofNat 32 6 + BitVec.ofNat 32 (6 * ls.length) =
        s.pc + BitVec.ofNat 32 (6 * (ls.length + 1)) := by
      rw [BitVec.add_assoc, ← BitVec.ofNat_add, Nat.mul_succ, Nat.add_comm 6]
    rw [List.length_cons, core_run_succ _ hstep, ih (s := advancePc 6 (writeReg l.1 l.2 s)) hx hrest, ← hpc]
    rfl

end Sys2Proof.Machine

namespace Sys2Proof
open Sys2Proof.Machine

/-- Settles O39: the run is one load a step by induction on the program, and of the loads into a register the last
stands. -/
theorem loadProgramLeavesLastValues : Obligations.LoadProgramLeavesLastValues := by
  intro ls s hx hm
  refine ⟨_, run_loads ls hx hm, fun r => (RegFile.get_loadAll ls s.regs r).trans ?_, rfl⟩
  cases ls.reverse.find? fun l => decide (l.1 = r) <;> rfl

/-- Settles O41: the decoder checks the length first and then the addressing byte's fields, and bytes of Format M are
the encoding of its load. -/
theorem xrStepOnLoadOpcode : Obligations.XrStepOnLoadOpcode := by
  intro s hx hop
  refine ⟨fun ⟨k, hk, habsent⟩ => ?_, fun b1 b2 b3 b4 b5 hm => ⟨fun r hmod hreg hrm => ?_, fun hother => ?_⟩⟩
  · exact step_of_decode_error hx.1 hx.2 (fetchDecode_of_absent_operand hop hk habsent)
  · rw [← encode_mov_of_fields hmod hreg hrm] at hm
    exact step_of_holds hx hm
  · obtain ⟨e, hd, hne, hbytes⟩ := fetchDecode_of_other_addressing hm hother
    rw [step_of_decode_error hx.1 hx.2 hd, takeFetchError_of_ne_truncated hne, hbytes]

/-- Settles O17: an append that answers `ok` has appended the load's encoding. -/
theorem successfulLoadImmAppendsSixBytes : Obligations.SuccessfulLoadImmAppendsSixBytes := by
  intro cap v r e h
  rw [← encode_mov_bytes]
  exact EncState.append_stream_of_ok h

/-- Settles O20: the three cases of an append, for the six bytes of a load. -/
theorem loadImmRequestAppendsSixBytesOrFaults : Obligations.LoadImmRequestAppendsSixBytesOrFaults := by
  intro cap v r e
  rw [← encode_mov_bytes, EncState.handle_loadImm]
  refine ⟨fun hf => EncState.append_of_frozen cap _ _ hf, fun hf k hcap hk => ?_,
    fun hf hfit => EncState.append_of_fits _ hf hfit⟩
  rw [hcap]
  exact EncState.append_of_overflow _ hf hk

/-- Settles O48: the next state is the register's write and the pc's advance, which leave every other field. -/
theorem loadWritesRegisterAndNothingElse : Obligations.LoadWritesRegisterAndNothingElse :=
  fun r imm s => ⟨_, exec_mov r imm s, RegFile.get_set_same s.regs r imm, rfl,
    fun _ hq => RegFile.get_set_other s.regs imm hq, fun _ => rfl, rfl, rfl, rfl, rfl, rfl, rfl, rfl, rfl, rfl⟩

/-- Settles O49: the second load replaces all 32 bits of the register, so nothing of the first is left. -/
theorem laterLoadReplacesEarlier : Obligations.LaterLoadReplacesEarlier :=
  fun r v w s => ⟨_, _, _, exec_mov r v s, exec_mov r w _, exec_mov r w s, RegFile.set_set s.regs r v w,
    RegFile.get_set_same (s.regs.set r v) r w⟩

end Sys2Proof
end

section
/-! PROOFS. The interrupt form (42_int_n.md): its request on the encoder (R76, R77), the XR's fetch and dispatch (R78),
and what an interrupt leaves of the state under a Kernel's outcome (R79 to R82). -/

namespace Sys2Proof.Machine

/-! ## The request on the encoder (R76) -/

theorem EncState.handle_softInt (cap : Option Nat) (n : Byte) (e : EncState) :
    e.handle cap (.softInt n) = e.append cap (.softInt n) [0xCD, n] := rfl

/-! ## The fetch by its opcode byte (R78) -/

theorem fetchDecode_of_present {s : State} {b : Byte} (h : Memory.read s.mem s.pc = some b) :
    fetchDecode s = decode (b :: fetchWindow s.mem (s.pc + 1) 5) := by
  simp only [fetchDecode, maxInstrBytes, fetchWindow, h]

theorem fetchDecode_of_unknown_opcode {s : State} {b : Byte} (h : Memory.read s.mem s.pc = some b) (hmov : b ≠ 0xC7)
    (hint : b ≠ 0xCD) : fetchDecode s = .error (.unknownOpcode b) := by
  rw [fetchDecode_of_present h, decode, opcodeMov, opcodeInt, if_neg hmov, if_neg hint]

theorem fetchDecode_of_absent_vector {s : State} (h : Memory.read s.mem s.pc = some 0xCD)
    (habsent : Memory.read s.mem (s.pc + 1) = none) : fetchDecode s = .error .truncated := by
  rw [fetchDecode_of_present h, fetchWindow_absent habsent]
  rfl

/-! ## The memory a Kernel returns -/

/-- `RegFile.get_loadAll` for memory: the last byte written to an address stands. -/
theorem Memory.read_foldl_write (cells : List (Word32 × Byte)) (m : Memory) (a : Word32) :
    Memory.read (cells.foldl (fun m c => Memory.write m c.1 c.2) m) a =
      ((cells.reverse.find? fun c => decide (c.1 = a)).map fun c => c.2).or (Memory.read m a) := by
  induction cells generalizing m with
  | nil => rfl
  | cons c cells ih =>
    rw [List.foldl_cons, ih, Memory.read_write, List.reverse_cons, List.find?_append, Option.map_or, Option.or_assoc]
    congr 1
    by_cases h : c.1 = a <;> simp [h, eq_comm (a := a)]

theorem Memory.read_ofCells (cells : List (Word32 × Byte)) (a : Word32) :
    Memory.read (Memory.ofCells cells) a =
      (cells.reverse.find? fun c => decide (c.1 = a)).map fun c => c.2 := by
  rw [Memory.ofCells, Memory.read_foldl_write, Memory.read_nil, Option.or_none]

/-! ## An interrupt under each outcome of a Kernel (R79) -/

section

variable {kernel : KernelService} {n : Byte} {s : State}

theorem execIntWith_of_ret {x : RegFile} {cells : List (Word32 × Byte)}
    (h : kernel s.draws n s.regs s.mem = .ret x cells) :
    execIntWith kernel n s = .next (returnFromKernel x (Memory.ofCells cells) (countDraw s)) := by
  rw [execIntWith, h, takeKernelOutcome]

theorem execIntWith_of_terminate {code : ExitStatus} (h : kernel s.draws n s.regs s.mem = .terminate code) :
    execIntWith kernel n s = .next (terminateXr code (countDraw s)) := by
  rw [execIntWith, h, takeKernelOutcome]

theorem execIntWith_of_fault {info : KernelInfo} (h : kernel s.draws n s.regs s.mem = .fault info) :
    execIntWith kernel n s = .next (raiseXr (.kernelFault n info) (countDraw s)) := by
  rw [execIntWith, h, takeKernelOutcome]

end

theorem exec_int_eq_execIntWith (n : Byte) (s : State) :
    exec (.int n) s = execIntWith Config.kernelService n s := rfl

/-- The XR's step on an interrupt whose two bytes are both there. -/
theorem step_of_interrupt_bytes {s : State} {n : Byte} (hx : s.executing) (hop : Memory.read s.mem s.pc = some 0xCD)
    (hn : Memory.read s.mem (s.pc + 1) = some n) : step s = execIntWith Config.kernelService n s := by
  have hm : s.mem.Holds s.pc (encode (.int n)) :=
    Memory.holds_cons.mpr ⟨hop, Memory.holds_cons.mpr ⟨hn, Memory.holds_nil _ _⟩⟩
  rw [step_of_holds hx hm, exec_int_eq_execIntWith]

end Sys2Proof.Machine

namespace Sys2Proof
open Sys2Proof.Machine

/-- Settles O40: the opcode byte alone decides, absent as the end of the bytes and unknown as a refusal with it. -/
theorem xrStopsOnAbsentOrUnknownOpcode : Obligations.XrStopsOnAbsentOrUnknownOpcode :=
  fun _ hx => ⟨fun habsent => step_of_decode_error hx.1 hx.2 (fetchDecode_of_absent habsent),
    fun _ hb hmov hint => step_of_decode_error hx.1 hx.2 (fetchDecode_of_unknown_opcode hb hmov hint)⟩

/-- Settles O42: without the vector the fetch is truncated; with it the step is the interrupt, one draw later under
each of the Kernel's outcomes. -/
theorem xrStepOnInterruptOpcode : Obligations.XrStepOnInterruptOpcode := by
  intro s hx hop
  refine ⟨fun habsent => step_of_decode_error hx.1 hx.2 (fetchDecode_of_absent_vector hop habsent),
    fun n hn => ⟨s.draws + 1, ?_⟩⟩
  rw [step_of_interrupt_bytes hx hop hn]
  cases h : Config.kernelService s.draws n s.regs s.mem with
  | ret x cells => exact execIntWith_of_ret h
  | terminate code => exact execIntWith_of_terminate h
  | fault info => exact execIntWith_of_fault h

/-- Settles O50: each outcome's next state by its own fields, the memory of a return by its last write to each
address. -/
theorem interruptTakesKernelOutcome : Obligations.InterruptTakesKernelOutcome := by
  intro n s
  rw [exec_int_eq_execIntWith]
  cases h : Config.kernelService s.draws n s.regs s.mem with
  | ret x cells => exact ⟨_, execIntWith_of_ret h, by simp [Memory.read_ofCells]⟩
  | terminate code => exact ⟨_, execIntWith_of_terminate h, by simp⟩
  | fault info => exact ⟨_, execIntWith_of_fault h, by simp⟩

/-- Settles O18: an append that answers `ok` has appended the interrupt's encoding. -/
theorem successfulSoftIntAppendsTwoBytes : Obligations.SuccessfulSoftIntAppendsTwoBytes := by
  intro cap n e h
  rw [EncState.handle_softInt] at h ⊢
  exact EncState.append_stream_of_ok h

/-- Settles O21: the three cases of an append, for the two bytes of an interrupt. -/
theorem softIntRequestAppendsTwoBytesOrFaults : Obligations.SoftIntRequestAppendsTwoBytesOrFaults := by
  intro cap n e
  rw [EncState.handle_softInt]
  refine ⟨fun hf => EncState.append_of_frozen cap _ _ hf, fun hf k hcap hk => ?_,
    fun hf hfit => EncState.append_of_fits _ hf hfit⟩
  rw [hcap]
  exact EncState.append_of_overflow _ hf hk

/-- Settles O37: `fetchDecode` is the decoder on the window at the pc. -/
theorem stepRunsDecodedInstruction : Obligations.StepRunsDecodedInstruction :=
  fun _ _ _ hx hd => step_of_decode hx.1 hx.2 hd

/-- Settles O53: the premise gives the Kernel's outcome for the state's own draw, registers and memory, and the
interrupt takes it. -/
theorem linuxExitTerminatesWithB : Obligations.LinuxExitTerminatesWithB := by
  intro kernel s hlinux
  obtain ⟨hexit, hwrite⟩ := hlinux s.draws s.regs s.mem
  constructor
  · intro ha
    obtain ⟨code, hk, hcode⟩ := hexit ha
    exact ⟨_, code, execIntWith_of_terminate hk, rfl, hcode, rfl⟩
  · intro ha
    obtain ⟨x, cells, hk⟩ := hwrite ha
    exact ⟨_, execIntWith_of_ret hk, rfl, rfl⟩

end Sys2Proof
end

section
/-! PROOFS. The execution harness (48_host_harness.md): what Populate leaves in memory (R86), the step of each harness
operation at its place in R110's order, the process exit status (R88, R89), and an XR step beside the Host's queue. -/

namespace Sys2Proof

theorem NonZeroInt.toInt_ne_zero (z : NonZeroInt) : z.toInt ≠ 0 := by
  cases z <;> simp only [NonZeroInt.toInt] <;> omega

end Sys2Proof

namespace Sys2Proof.Machine

/-! ## Bytes written at ascending addresses (20_memory.md R35) -/

theorem ne_add_ofNat {a : Word32} {k : Nat} (h0 : 0 < k) (hk : k < 2 ^ 32) : a ≠ a + BitVec.ofNat 32 k := by
  intro h
  have := congrArg BitVec.toNat h
  rw [BitVec.toNat_add, BitVec.toNat_ofNat, Nat.mod_eq_of_lt hk] at this
  omega

theorem Memory.sameOutside_writeBytes (m : Memory) (a : Word32) (bs : List Byte) :
    m.SameOutside (writeBytes m a bs) a bs.length := by
  induction bs generalizing m a with
  | nil => exact fun _ _ => rfl
  | cons b bs ih =>
    intro x hx
    have hfirst : x ≠ a := by simpa using hx 0 (by simp)
    have hrest : ∀ k, k < bs.length → x ≠ a + 1 + BitVec.ofNat 32 k := fun k hk => by
      rw [offset_succ]
      exact hx (k + 1) (by simpa using hk)
    rw [writeBytes, ih (write m a b) (a + 1) x hrest, read_write_other m b hfirst]

/-- Bytes that fit the address space do not reach around to their own first one. -/
theorem Memory.holds_writeBytes (m : Memory) (a : Word32) {bs : List Byte} (h : bs.length ≤ 2 ^ 32) :
    (writeBytes m a bs).Holds a bs := by
  induction bs generalizing m a with
  | nil => exact holds_nil _ _
  | cons b bs ih =>
    rw [List.length_cons] at h
    have hfirst : read (writeBytes (write m a b) (a + 1) bs) a = read (write m a b) a :=
      sameOutside_writeBytes _ _ bs a fun k hk => by
        rw [offset_succ]
        exact ne_add_ofNat k.succ_pos (by omega)
    exact holds_cons.mpr ⟨hfirst.trans (read_write_same m a b), ih _ _ (by omega)⟩

/-! ## The step of each harness operation at its place in R110's order (the counterparts of `harnessOp_cases`) -/

section

variable {s : State} {q : List HostOp}

/-- The counterpart of `step_of_portRequest` for an operation that the encoder's port has no request for. -/
theorem step_of_harnessOp {op : HostOp} (ht : s.hostTurn) (hq : s.hostQueue = op :: q) (hop : portRequest op = none) :
    step s = harnessOp op { s with hostQueue := q } := by
  rw [step_of_hostTurn ht, hostStep_of_hostQueue hq]
  simp only [hostOp, hop]

theorem step_of_acquire {n : Nat} (hp : s.phase = .encoding) (hf : s.enc.frozen = true)
    (hq : s.hostQueue = .acquire n :: q) : step s = .next (acquire n { s with hostQueue := q }) :=
  (step_of_harnessOp (.inl hp) hq rfl).trans (by simp [harnessOp, hp, hf])

theorem step_of_populate {r : Region} (hp : s.phase = .acquired) (hr : s.region = some r)
    (hq : s.hostQueue = .populate :: q) : step s = populate r { s with hostQueue := q } :=
  (step_of_harnessOp (.inr (.inl hp)) hq rfl).trans (by simp only [harnessOp, hp, hr])

theorem step_of_invoke {r : Region} (hp : s.phase = .populated) (hr : s.region = some r)
    (hq : s.hostQueue = .invoke :: q) : step s = .next (invoke r { s with hostQueue := q }) :=
  (step_of_harnessOp (.inr (.inr hp)) hq rfl).trans (by simp only [harnessOp, hp, hr])

theorem populate_of_undersized {r : Region} (h : r.size < s.enc.stream.length) :
    populate r s = .refused (.regionUndersized r.size s.enc.stream.length) := if_pos h

theorem populate_of_fits {r : Region} (h : s.enc.stream.length ≤ r.size) :
    populate r s = .next { s with mem := Memory.writeBytes s.mem r.base s.enc.stream, phase := .populated } :=
  if_neg (Nat.not_lt.mpr h)

/-- The handoff (R86, R87): two steps of the Host, from an acquired region to the XR. -/
theorem run_populate_invoke {r : Region} (hp : s.phase = .acquired) (hr : s.region = some r)
    (hq : s.hostQueue = .populate :: .invoke :: q) (hsize : s.enc.stream.length ≤ r.size) :
    Host.Core.run core 2 s = .next (invoke r { s with
      hostQueue := q, mem := Memory.writeBytes s.mem r.base s.enc.stream, phase := .populated }) :=
  (core_run_succ 1 ((step_of_populate hp hr hq).trans (populate_of_fits hsize))).trans
    (core_run_succ 0 (step_of_invoke rfl hr rfl))

end

/-! ## A run that has ended (R88, R89, 60_exceptions.md R98) -/

theorem step_of_allocationFailed {s : State} {d : Diagnostic} (hp : s.phase = .allocationFailed d) :
    step s = .fault (.allocationError d) := by
  simp only [step, hp]

theorem step_of_terminated {s : State} {code : ExitStatus} (hp : s.phase = .invoked)
    (hs : s.status = .terminated code) : step s = .refused (.processEnded code) := by
  simp only [step_of_invoked hp, xrStep, hs]

theorem step_of_faulted {s : State} {f : Fault} (hp : s.phase = .invoked) (hs : s.status = .faulted f) :
    step s = .fault f := by
  simp only [step_of_invoked hp, xrStep, hs]

theorem step_of_refused {s : State} {r : Refusal} (hp : s.phase = .invoked) (hs : s.status = .refused r) :
    step s = .refused r := by
  simp only [step_of_invoked hp, xrStep, hs]

/-- A process has exited by a failed Acquire, with the sentinel, or by its own termination, with its code. -/
theorem State.exitStatus_eq_some_iff {s : State} {code : ExitStatus} :
    s.exitStatus = some code ↔
      (∃ d, s.phase = .allocationFailed d) ∧ code = Config.allocFailStatus.toInt ∨
      s.phase = .invoked ∧ s.status = .terminated code := by
  cases hp : s.phase with
  | invoked => cases hs : s.status <;> simp [State.exitStatus, hp, hs]
  | allocationFailed d => simp [State.exitStatus, hp, eq_comm (a := code)]
  | encoding => simp [State.exitStatus, hp]
  | acquired => simp [State.exitStatus, hp]
  | populated => simp [State.exitStatus, hp]

/-! ## An XR step beside the Host's side (R83, R88) -/

/-- The machine with other operations pending at the Host. -/
def State.withHostQueue (q : List HostOp) (s : State) : State := { s with hostQueue := q }

/-- An outcome with its next state, where it has one, changed. -/
def mapNext (g : State → State) : Host.Outcome State Fault Refusal → Host.Outcome State Fault Refusal
  | .next t => .next (g t)
  | .fault f => .fault f
  | .refused r => .refused r

theorem takeKernelOutcome_withHostQueue (n : Byte) (o : KernelOutcome) (q : List HostOp) (s : State) :
    takeKernelOutcome n o (s.withHostQueue q) = (takeKernelOutcome n o s).withHostQueue q := by
  cases o <;> rfl

theorem takeFetchError_withHostQueue (e : DecodeError) (q : List HostOp) (s : State) :
    takeFetchError e (s.withHostQueue q) = (takeFetchError e s).withHostQueue q := by
  cases e <;> rfl

theorem exec_withHostQueue (i : Instr) (q : List HostOp) (s : State) :
    exec i (s.withHostQueue q) = mapNext (State.withHostQueue q) (exec i s) := by
  cases i with
  | mov r v => rfl
  | int n =>
    rw [exec_int, exec_int, mapNext, ← takeKernelOutcome_withHostQueue]
    rfl

/-- The XR reads nothing of the Host's queue: its fetch, its meanings and its end are those of the other fields. -/
theorem step_withHostQueue {s : State} (hp : s.phase = .invoked) (q : List HostOp) :
    step (s.withHostQueue q) = mapNext (State.withHostQueue q) (step s) := by
  have hp' : (s.withHostQueue q).phase = .invoked := hp
  cases hs : s.status with
  | running =>
    cases hd : fetchDecode s with
    | ok p =>
      obtain ⟨i, rest⟩ := p
      rw [step_of_decode hp hs hd, step_of_decode hp' hs hd, exec_withHostQueue]
    | error e =>
      rw [step_of_decode_error hp hs hd, step_of_decode_error hp' hs hd, takeFetchError_withHostQueue, mapNext]
  | terminated code => rw [step_of_terminated hp hs, step_of_terminated hp' hs, mapNext]
  | faulted f => rw [step_of_faulted hp hs, step_of_faulted hp' hs, mapNext]
  | refused r => rw [step_of_refused hp hs, step_of_refused hp' hs, mapNext]

theorem takeKernelOutcome_frame (n : Byte) (o : KernelOutcome) (s : State) :
    ∃ m x pc st, takeKernelOutcome n o s = { s with mem := m, regs := x, pc := pc, status := st } := by
  cases o <;> exact ⟨_, _, _, _, rfl⟩

theorem takeFetchError_frame (e : DecodeError) (s : State) :
    ∃ st, takeFetchError e s = { s with status := st } := by
  cases e <;> exact ⟨_, rfl⟩

/-- An XR step changes the XR, memory and the model's own counter only. -/
theorem xrStep_frame {s t : State} (h : xrStep s = .next t) :
    ∃ m x pc st d, t = { s with mem := m, regs := x, pc := pc, status := st, draws := d } := by
  obtain ⟨-, ⟨r, v, rest, -, rfl⟩ | ⟨n, rest, -, rfl⟩ | ⟨e, -, rfl⟩⟩ := xrStep_cases h
  · exact ⟨_, _, _, _, _, rfl⟩
  · obtain ⟨m, x, pc, st, ho⟩ := takeKernelOutcome_frame n (Config.kernelService s.draws n s.regs s.mem) (countDraw s)
    exact ⟨m, x, pc, st, _, ho⟩
  · obtain ⟨st, he⟩ := takeFetchError_frame e s
    exact ⟨_, _, _, st, _, he⟩

/-! ## A termination by an interrupt (42_int_n.md R79) -/

/-- A running XR that an interrupt leaves terminated has the code the Kernel answered. -/
theorem kernel_eq_terminate_of_execIntWith {kernel : KernelService} {n : Byte} {s t : State} {code : ExitStatus}
    (hs : s.status = .running) (h : execIntWith kernel n s = .next t) (ht : t.status = .terminated code) :
    kernel s.draws n s.regs s.mem = .terminate code := by
  cases hk : kernel s.draws n s.regs s.mem with
  | ret x cells =>
    rw [execIntWith_of_ret hk] at h
    cases h
    simp [hs] at ht
  | terminate c =>
    rw [execIntWith_of_terminate hk] at h
    cases h
    simpa using ht
  | fault info =>
    rw [execIntWith_of_fault hk] at h
    cases h
    simp at ht

end Sys2Proof.Machine

namespace Sys2Proof
open Sys2Proof.Machine

/-- Settles O36: Populate writes the stream into memory that lists nothing, Invoke puts the pc at its first byte, and
the stream begins with the first instruction's encoding. -/
theorem handoffExecutesFirstInstruction : Obligations.HandoffExecutesFirstInstruction := by
  intro s r q i is hs hp hr hq hstream hsize
  obtain ⟨-, -, hmem⟩ := hs.afterAcquire hp
  have hinside := hs.regionInside r hr
  have hholds := Memory.holds_writeBytes s.mem r.base (hsize.trans (by omega))
  refine ⟨_, run_populate_invoke hp hr hq hsize, ⟨rfl, rfl⟩, rfl, rfl, hholds, fun a ha => ?_,
    step_of_holds ⟨rfl, rfl⟩ ?_⟩
  · exact (Memory.sameOutside_writeBytes s.mem r.base s.enc.stream a ha).trans (by rw [hmem, Memory.read_nil])
  · rw [hstream, encodeAll_cons] at hholds
    have hfirst := (Memory.holds_append.mp hholds).1
    simpa [hstream] using hfirst

/-- Settles O32: the step is the Acquire, and `acquire_cases` gives its two ends. -/
theorem acquireGivesRegionOrEndsProcess : Obligations.AcquireGivesRegionOrEndsProcess := by
  intro s n q hp hf hq
  refine ⟨_, step_of_acquire hp hf hq, ?_⟩
  rcases acquire_cases n { s with hostQueue := q } with ⟨r, hlarge, hzero, hinside, h⟩ | ⟨d, h⟩ <;> rw [h]
  · exact ⟨rfl, .inl ⟨rfl, r, rfl, hlarge, hzero, hinside⟩⟩
  · exact ⟨rfl, .inr ⟨d, rfl, rfl, State.exitStatus_eq_some_iff.mpr (.inl ⟨⟨d, rfl⟩, rfl⟩),
      NonZeroInt.toInt_ne_zero _, step_of_allocationFailed rfl⟩⟩

/-- Settles O33: the two cases of Populate, the second writing a stream that fits the address space with its region. -/
theorem populateCopiesStreamOrRefuses : Obligations.PopulateCopiesStreamOrRefuses := by
  intro s r q hp hr hq hinside
  rw [step_of_populate hp hr hq]
  refine ⟨fun hsmall => populate_of_undersized hsmall, fun hfits => ⟨_, populate_of_fits hfits, ?_, ?_, rfl⟩⟩
  · exact Memory.holds_writeBytes _ _ (hfits.trans (by omega))
  · exact Memory.sameOutside_writeBytes _ _ _

/-- Settles O35: the step with another queue is the step with the queue put back into its next state, and that state
differs in the XR, memory and the counter only. -/
theorem hostHasNoMoveAfterInvoke : Obligations.HostHasNoMoveAfterInvoke := by
  intro s q hp
  have hqueue := step_withHostQueue hp q
  refine ⟨fun t h => ?_, fun f h => ?_, fun f h => ?_⟩ <;> rw [h] at hqueue
  · obtain ⟨m, x, pc, st, d, rfl⟩ := xrStep_frame ((step_of_invoked hp).symm.trans h)
    exact ⟨hqueue, rfl, rfl, rfl, rfl, rfl, hp, rfl⟩
  · exact hqueue
  · exact hqueue

/-- Settles O52: the other way to an exit status is a termination, whose code the invariant keeps from the sentinel. -/
theorem exitStatusTellsAllocationFailure : Obligations.ExitStatusTellsAllocationFailure := by
  refine ⟨kernelService_sentinelDistinct, NonZeroInt.toInt_ne_zero _, fun s hs => ?_⟩
  rw [State.exitStatus_eq_some_iff]
  constructor
  · rintro (⟨hfailed, -⟩ | ⟨-, hcode⟩)
    · exact hfailed
    · exact absurd rfl (hs.statusDistinct _ hcode)
  · exact fun hfailed => .inl ⟨hfailed, rfl⟩

/-- Settles O22: Freeze sets one field, which a frozen encoder has set already, and no other request has an answer in
`EncState.returned`. -/
theorem freezeReturnsStreamAndIsIdempotent : Obligations.FreezeReturnsStreamAndIsIdempotent := by
  refine fun cap e => ⟨rfl, rfl, rfl, fun hf => ?_, fun conv hconv => ?_⟩
  · obtain ⟨stream, frozen, faults⟩ := e
    cases hf
    rfl
  · match conv with
    | .ok .freeze => exact absurd rfl hconv
    | .ok (.loadImm _ _) => rfl
    | .ok (.softInt _) => rfl
    | .error _ => rfl

/-- Settles O34: the step is the Invoke, which writes the XR and the phase. -/
theorem invokeStartsXrAtRegionBase : Obligations.InvokeStartsXrAtRegionBase :=
  fun _ _ _ hp hr hq =>
    ⟨_, step_of_invoke hp hr hq, rfl, RegFile.get_unwritten, rfl, rfl, rfl⟩

/-- Settles O44: the exit status of an invoked, terminated run, and the step that finds it ended. -/
theorem terminatedRunEndsProcessWithItsCode : Obligations.TerminatedRunEndsProcessWithItsCode :=
  fun _ _ hp hs => ⟨State.exitStatus_eq_some_iff.mpr (.inr ⟨hp, hs⟩), step_of_terminated hp hs⟩

/-- Settles O51: the code is one the Kernel answered, and the premise keeps those from the sentinel. -/
theorem sentinelDiffersFromTerminationCodes : Obligations.SentinelDiffersFromTerminationCodes :=
  fun _ sentinel _ _ _ _ hdistinct hs h ht =>
    ⟨hdistinct _ _ _ _ _ (kernel_eq_terminate_of_execIntWith hs h ht), sentinel.toInt_ne_zero⟩

end Sys2Proof
end

section
/-! PROOFS. Faults (60_exceptions.md): what a faulted request leaves of the encoder (R94, R97), what a step keeps of
what is recorded (R96, R97), and how an XR stops (R98). -/

namespace Sys2Proof

/-- The premise that `EncState.append_of_overflow` asks for. -/
theorem exists_lt_of_not_fits {cap : Option Nat} {n : Nat} (h : ¬ fits cap n) : ∃ k, cap = some k ∧ k < n := by
  simpa [fits] using h

end Sys2Proof

namespace Sys2Proof.Machine

/-! ## A request that answers a fault (R94, R97) -/

/-- The only way to answer a fault is to raise it. -/
theorem EncState.submit_eq_raise {cap : Option Nat} {conv : Except Fault Request} {e : EncState} {f : Fault}
    (h : (e.submit cap conv).2 = .fault f) : e.submit cap conv = e.raise f := by
  rcases EncState.submit_cases cap conv e with ⟨i, -, -, hsub⟩ | hsub | ⟨g, hsub⟩ <;> rw [hsub] at h
  · cases h
  · cases h
  · cases h
    exact hsub

/-- Freeze alone returns something, and it answers no fault. -/
theorem EncState.returned_of_fault {cap : Option Nat} {conv : Except Fault Request} {e : EncState} {f : Fault}
    (h : (e.submit cap conv).2 = .fault f) : e.returned conv = none := by
  obtain ⟨-, -, -, -, hreturned⟩ := freezeReturnsStreamAndIsIdempotent cap e
  apply hreturned
  rintro rfl
  cases h

/-! ## What a request leaves of the recorded faults -/

theorem EncState.submit_faults_cases (cap : Option Nat) (conv : Except Fault Request) (e : EncState) :
    (e.submit cap conv).1.faults = e.faults ∨ ∃ f, (e.submit cap conv).1.faults = e.faults ++ [f] := by
  rcases EncState.submit_cases cap conv e with ⟨i, -, -, hsub⟩ | hsub | ⟨f, hsub⟩ <;> rw [hsub]
  · exact .inl rfl
  · exact .inl rfl
  · exact .inr ⟨f, rfl⟩

theorem EncState.faults_prefix_submit (cap : Option Nat) (conv : Except Fault Request) (e : EncState) :
    e.faults <+: (e.submit cap conv).1.faults := by
  rcases EncState.submit_faults_cases cap conv e with h | ⟨f, h⟩ <;> rw [h]
  exact List.prefix_append _ _

/-! ## Recorded faults have no bearing on a request (92_eei_decisions.md D9) -/

/-- The encoder with other faults recorded. -/
def EncState.withFaults (fs : List Fault) (e : EncState) : EncState := { e with faults := fs }

/-- An append with other faults recorded has the same one of its three results, `faults` aside. -/
theorem EncState.append_withFaults (cap : Option Nat) (req : Request) (bs : List Byte) (fs : List Fault)
    (e : EncState) : ∃ fs', (e.withFaults fs).append cap req bs =
      ((e.append cap req bs).1.withFaults fs', (e.append cap req bs).2) := by
  by_cases hf : e.frozen = true
  · refine ⟨fs ++ [.streamFrozen req], ?_⟩
    rw [append_of_frozen (e := e) cap req bs hf, append_of_frozen (e := e.withFaults fs) cap req bs hf]
    rfl
  · rw [Bool.not_eq_true] at hf
    by_cases hfit : fits cap (e.stream.length + bs.length)
    · refine ⟨fs, ?_⟩
      rw [append_of_fits (e := e) req hf hfit, append_of_fits (e := e.withFaults fs) req hf hfit]
      rfl
    · obtain ⟨k, rfl, hk⟩ := exists_lt_of_not_fits hfit
      refine ⟨fs ++ [.streamOverflow e.stream.length bs.length], ?_⟩
      rw [append_of_overflow (e := e) req hf hk, append_of_overflow (e := e.withFaults fs) req hf hk]
      rfl

theorem EncState.submit_withFaults (cap : Option Nat) (conv : Except Fault Request) (fs : List Fault) (e : EncState) :
    ∃ fs', (e.withFaults fs).submit cap conv =
      ((e.submit cap conv).1.withFaults fs', (e.submit cap conv).2) := by
  rcases conv with f | req
  · exact ⟨fs ++ [f], rfl⟩
  · cases req with
    | loadImm v dest => exact EncState.append_withFaults cap _ _ fs e
    | softInt n => exact EncState.append_withFaults cap _ _ fs e
    | freeze => exact ⟨fs, rfl⟩

theorem EncState.returned_withFaults (conv : Except Fault Request) (fs : List Fault) (e : EncState) :
    (e.withFaults fs).returned conv = e.returned conv := by
  rcases conv with f | req
  · rfl
  · cases req <;> rfl

/-! ## What a step keeps of the request faults and of the capacity (R96, R97) -/

/-- A step submits one request or none, and a request records one fault or none. -/
theorem step_faults_cases {s t : State} (h : step s = .next t) :
    t.enc.faults = s.enc.faults ∨ ∃ f, t.enc.faults = s.enc.faults ++ [f] := by
  rcases step_enc_cases h with henc | ⟨-, op, q, conv, -, -, henc, -⟩ <;> rw [henc]
  · exact .inl rfl
  · exact EncState.submit_faults_cases s.streamCapacity conv s.enc

@[simp] theorem acquire_streamCapacity (n : Nat) (s : State) : (acquire n s).streamCapacity = s.streamCapacity := by
  rcases acquire_cases n s with ⟨r, -, -, -, h⟩ | ⟨d, h⟩ <;> simp [h]

theorem harnessOp_keeps_streamCapacity {op : HostOp} {s t : State} (h : harnessOp op s = .next t) :
    t.streamCapacity = s.streamCapacity := by
  rcases harnessOp_cases h with ⟨n, -, -, -, rfl⟩ | ⟨r, -, -, -, -, rfl⟩ | ⟨r, -, -, -, rfl⟩
  · exact acquire_streamCapacity n s
  · rfl
  · rfl

theorem step_keeps_streamCapacity {s t : State} (h : step s = .next t) : t.streamCapacity = s.streamCapacity := by
  rcases step_cases h with ⟨-, hh⟩ | ⟨-, hx⟩
  · obtain ⟨op, q, -, ⟨conv, -, rfl⟩ | ho⟩ := hostStep_cases hh
    · rfl
    · have hcap := harnessOp_keeps_streamCapacity ho
      exact hcap
  · obtain ⟨m, x, pc, st, d, rfl⟩ := xrStep_frame hx
    rfl

/-! ## A clean run (R92, R97, R98) -/

theorem State.clean_iff {s : State} :
    s.clean = true ↔ s.enc.faults = [] ∧ (∀ d, s.phase ≠ .allocationFailed d) ∧
      (∀ f, s.status ≠ .faulted f) ∧ ∀ r, s.status ≠ .refused r := by
  cases hp : s.phase with
  | allocationFailed d => simp [State.clean, hp]
  | encoding | acquired | populated | invoked => cases hs : s.status <;> simp [State.clean, hp, hs]

/-- A failed Acquire ends the process (48_host_harness.md R89). -/
theorem phase_ne_allocationFailed_of_step {s t : State} (h : step s = .next t) (d : Diagnostic) :
    s.phase ≠ .allocationFailed d := by
  intro hp
  rw [step_of_allocationFailed hp] at h
  cases h

/-- Before Invoke the invariant holds `status` at its start value, and after it only a running XR has a step. -/
theorem State.Inv.status_running_of_step {s t : State} (hs : s.Inv) (h : step s = .next t) : s.status = .running := by
  by_cases hp : s.phase = .invoked
  · rw [step_of_invoked hp] at h
    exact (xrStep_cases h).1
  · exact hs.beforeInvoke hp

/-! ## A stop of the XR (R98) -/

@[simp] theorem takeKernelOutcome_draws (n : Byte) (o : KernelOutcome) (s : State) :
    (takeKernelOutcome n o s).draws = s.draws := by
  cases o <;> rfl

theorem takeKernelOutcome_of_stop {n : Byte} {o : KernelOutcome} {s : State} (hs : s.status = .running)
    (hstop : (takeKernelOutcome n o s).status ≠ .running) :
    takeKernelOutcome n o s = { s with status := (takeKernelOutcome n o s).status } := by
  cases o with
  | ret x cells => exact absurd hs hstop
  | terminate c => rfl
  | fault info => rfl

/-- An XR step that stops the run, in whatever way, changes `status` and the model's own counter only. -/
theorem xrStep_of_stop {s t : State} (h : xrStep s = .next t) (hstop : t.status ≠ .running) :
    t = { s with status := t.status, draws := t.draws } := by
  obtain ⟨hs, ⟨r, v, rest, -, rfl⟩ | ⟨n, rest, -, rfl⟩ | ⟨e, -, rfl⟩⟩ := xrStep_cases h
  · exact absurd hs hstop
  · rw [takeKernelOutcome_draws]
    exact takeKernelOutcome_of_stop hs hstop
  · obtain ⟨st, he⟩ := takeFetchError_frame e s
    rw [he]

end Sys2Proof.Machine

namespace Sys2Proof
open Sys2Proof.Machine

/-- Settles O19: a raised fault leaves the stream. -/
theorem faultedRequestEmitsNoByte : Obligations.FaultedRequestEmitsNoByte := by
  intro cap conv e f h
  rw [EncState.submit_eq_raise h]
  rfl

/-- Settles O23: a raised fault is added to `faults` and nothing else is written; and a request reads nothing of
`faults`, so it does the same whatever they hold. -/
theorem faultedRequestOnlyRecordsItsFault : Obligations.FaultedRequestOnlyRecordsItsFault := by
  refine fun cap conv e => ⟨fun f h => ⟨?_, EncState.returned_of_fault h⟩,
    EncState.faults_prefix_submit cap conv e, fun fs => ?_⟩
  · rw [EncState.submit_eq_raise h]
    rfl
  · obtain ⟨fs', hsub⟩ := EncState.submit_withFaults cap conv fs e
    rw [EncState.withFaults] at hsub
    rw [hsub]
    exact ⟨rfl, rfl, rfl, EncState.returned_withFaults conv fs e⟩

/-- Settles O29: the two cases of `step_faults_cases`, and no step writes the capacity. -/
theorem stepsKeepRecordedFaultsAndCapacity : Obligations.StepsKeepRecordedFaultsAndCapacity := by
  intro s t h
  have hcap := step_keeps_streamCapacity h
  rcases step_faults_cases h with hfaults | ⟨f, hfaults⟩ <;> rw [hfaults]
  · exact ⟨List.prefix_rfl, Nat.le_succ _, hcap⟩
  · exact ⟨List.prefix_append _ _, by simp, hcap⟩

/-- Settles O30: a state with a step has no failed allocation and a running XR, and its request faults are among
those of the next. -/
theorem recordedFaultsAreNeverCleared : Obligations.RecordedFaultsAreNeverCleared := by
  intro s t hs h hclean
  obtain ⟨hnone, -, -, -⟩ := State.clean_iff.mp hclean
  obtain ⟨hprefix, -, -⟩ := stepsKeepRecordedFaultsAndCapacity s t h
  rw [hnone, List.prefix_nil] at hprefix
  have hrun := hs.status_running_of_step h
  exact State.clean_iff.mpr
    ⟨hprefix, phase_ne_allocationFailed_of_step h, by simp [hrun], by simp [hrun]⟩

/-- Settles O43: the two stops are cases of `xrStep_of_stop`, and an XR that is not running has no step. -/
theorem xrFaultIsPreciseAndFinal : Obligations.XrFaultIsPreciseAndFinal := by
  refine ⟨fun s t hx h => ?_, fun s hp hs t h => ?_⟩
  · rw [step_of_invoked hx.1] at h
    have hstop := xrStep_of_stop h
    exact ⟨fun f hf => hf ▸ hstop (by simp [hf]), fun f hf => hf ▸ hstop (by simp [hf])⟩
  · rw [step_of_invoked hp] at h
    exact hs (xrStep_cases h).1

end Sys2Proof
end

section
/-! PROOFS. The order of the handoff (70_reset_and_hazards.md R110): Freeze, Acquire, Populate, Invoke, and no way back
from the XR (48_host_harness.md R88). -/

namespace Sys2Proof.Machine

theorem acquire_phase_cases (n : Nat) (s : State) :
    (acquire n s).phase = .acquired ∨ ∃ d, (acquire n s).phase = .allocationFailed d := by
  rcases acquire_cases n s with ⟨r, -, -, -, h⟩ | ⟨d, h⟩ <;> rw [h]
  · exact .inl rfl
  · exact .inr ⟨d, rfl⟩

theorem harnessOp_phase_cases {op : HostOp} {s t : State} (h : harnessOp op s = .next t) :
    (s.phase = .encoding ∧ s.enc.frozen = true ∧ (t.phase = .acquired ∨ ∃ d, t.phase = .allocationFailed d)) ∨
    (s.phase = .acquired ∧ t.phase = .populated) ∨
    (s.phase = .populated ∧ t.phase = .invoked) := by
  rcases harnessOp_cases h with ⟨n, -, hp, hf, rfl⟩ | ⟨r, -, hp, -, -, rfl⟩ | ⟨r, -, hp, -, rfl⟩
  · exact .inl ⟨hp, hf, acquire_phase_cases n s⟩
  · exact .inr (.inl ⟨hp, rfl⟩)
  · exact .inr (.inr ⟨hp, rfl⟩)

theorem xrStep_keeps_phase {s t : State} (h : xrStep s = .next t) : t.phase = s.phase := by
  obtain ⟨m, x, pc, st, d, rfl⟩ := xrStep_frame h
  rfl

end Sys2Proof.Machine

namespace Sys2Proof
open Sys2Proof.Machine

/-- Settles O31: a request to the encoder and an XR step keep the phase, and each harness operation moves it on from
the one phase in which the Host may perform it. -/
theorem phasesFollowHandoffOrder : Obligations.PhasesFollowHandoffOrder := by
  intro s t h
  rcases step_cases h with ⟨-, hh⟩ | ⟨-, hx⟩
  · obtain ⟨op, q, -, ⟨conv, -, rfl⟩ | ho⟩ := hostStep_cases hh
    · exact .inl (submitRequest_phase conv _)
    · have hphase := harnessOp_phase_cases ho
      exact .inr hphase
  · exact .inl (xrStep_keeps_phase hx)

end Sys2Proof
end
